-- ==== Sys2Proof/Word.lean ====
section
/-! DEFINITION. The data of the unit: bytes, Words, the two port words, and the three register arrays
(00 R7, 10 R10 to R12, 20 R21, 30 R35, R36). -/

namespace Sys2Proof

/-- A byte is 8 bits, bit 0 the least significant: a FieldElement of GF(2^8) (20 R21, 40 R50). -/
abbrev Byte := BitVec 8

/-- A Word is 32 bits, four bytes (20 R22). -/
abbrev Word := BitVec 32

/-- A command word `CMD[71:0]` (30 R35). -/
abbrev CmdWord := BitVec 72

/-- A response word `RSP[35:0]` (30 R36). -/
abbrev RspWord := BitVec 36

/-- One column of a State: its four bytes, row 0 first (10 R10). -/
abbrev Column := Vector Byte 4

/-- A State value `T[c][r]`: four columns of four rows (10 R10, 20 R23). -/
abbrev Block := Vector Column 4

/-- The four Words of a key or of one round key (10 R11, 44 R111). -/
abbrev Key := Vector Word 4

/-- The 44 Words of a schedule (10 R12). -/
abbrev Schedule := Vector Word 44

end Sys2Proof
end

