-- ==== Sys2Proof/Syntax.lean ====
section
/-! DEFINITION. The 25 commands (30 R39), one constructor per row of the opcode table. Byte and Word operands
are bits; an index is the unsigned number of the field `b[5:0]` (30 R38). -/

namespace Sys2Proof

/-- A command with its operands (30 R37, R39). The rule that gives each its meaning stands beside it. -/
inductive Instr where
  /-- RDSTAT: read STATUS (46 R130) -/
  | rdstat
  /-- GFADD x, y: field sum (40 R55) -/
  | gfadd (x y : Byte)
  /-- GFMUL x, y: field product (40 R56) -/
  | gfmul (x y : Byte)
  /-- GFPOW x, y: `x` to the power `y` (40 R57) -/
  | gfpow (x y : Byte)
  /-- GFINV x: field inverse (40 R58) -/
  | gfinv (x : Byte)
  /-- SBOX x: forward substitution (41 R64) -/
  | sbox (x : Byte)
  /-- ISBOX x: inverse substitution (41 R65) -/
  | isbox (x : Byte)
  /-- WMUL w, v: Word product modulo x^4+1 (42 R74) -/
  | wmul (w v : Word)
  /-- SUBBYTES (43 R89) -/
  | subbytes
  /-- INVSUBBYTES (43 R90) -/
  | invsubbytes
  /-- SHIFTROWS (43 R91) -/
  | shiftrows
  /-- INVSHIFTROWS (43 R92) -/
  | invshiftrows
  /-- MIXCOLUMNS (43 R93) -/
  | mixcolumns
  /-- INVMIXCOLUMNS (43 R94) -/
  | invmixcolumns
  /-- ADDROUNDKEY idx (43 R95) -/
  | addroundkey (idx : Nat)
  /-- LDS idx, w: load a column of the state register (43 R87) -/
  | lds (idx : Nat) (w : Word)
  /-- RDS idx: read a column of the state register (43 R88) -/
  | rds (idx : Nat)
  /-- ROTWORD w (44 R104) -/
  | rotword (w : Word)
  /-- SUBWORD w (44 R105) -/
  | subword (w : Word)
  /-- RCON x (44 R106) -/
  | rcon (x : Byte)
  /-- LDKEY idx, w: load a word of the key register (44 R107) -/
  | ldkey (idx : Nat) (w : Word)
  /-- KEYEXPAND (44 R108) -/
  | keyexpand
  /-- RDW idx: read a word of the schedule (44 R109) -/
  | rdw (idx : Nat)
  /-- ENCRYPT (45 R122) -/
  | encrypt
  /-- DECRYPT (45 R123) -/
  | decrypt
  deriving DecidableEq, Repr

end Sys2Proof
end

