-- ==== Sys2Proof/WellFormed.lean ====
section
/-! DEFINITION. Which terms of `Instr` are commands: byte and Word operands always fit their fields; an index
must fit the six bits of `b[5:0]` (20 R27, 30 R37, R38). An index that fits its field and is outside the
command's own range is a command, and answers E_INDEX (60 R138). -/

namespace Sys2Proof

/-- The index fits the field `b[5:0]`, 0..63 (30 R38). -/
def indexFits (idx : Nat) : Bool := idx < 64

/-- The term is a command that the command word can carry (30 R37). -/
def Instr.wellFormed : Instr → Bool
  | .addroundkey idx => indexFits idx
  | .lds idx _ => indexFits idx
  | .rds idx => indexFits idx
  | .ldkey idx _ => indexFits idx
  | .rdw idx => indexFits idx
  | .rdstat => true
  | .gfadd _ _ => true
  | .gfmul _ _ => true
  | .gfpow _ _ => true
  | .gfinv _ => true
  | .sbox _ => true
  | .isbox _ => true
  | .wmul _ _ => true
  | .subbytes => true
  | .invsubbytes => true
  | .shiftrows => true
  | .invshiftrows => true
  | .mixcolumns => true
  | .invmixcolumns => true
  | .rotword _ => true
  | .subword _ => true
  | .rcon _ => true
  | .keyexpand => true
  | .encrypt => true
  | .decrypt => true

end Sys2Proof
end

