-- ==== Sys2Proof/Decode.lean ====
section
/-! DEFINITION. The command word: its fields (30 R35), the seven formats (30 R37), the decoder, the encoder, and
the match and mask table of 30 R39. The decoder reads the opcode and checks the format's must-be-zero
bits; the table is the spec's second description of the same map, kept beside it so that the two can be
proved equal. -/

namespace Sys2Proof

/-- `op`, bits 71:64 (30 R35). -/
def opField (c : CmdWord) : BitVec 8 := c.extractLsb' 64 8

/-- `a`, bits 63:32 (30 R35). -/
def aField (c : CmdWord) : Word := c.extractLsb' 32 32

/-- `b`, bits 31:0 (30 R35). -/
def bField (c : CmdWord) : Word := c.extractLsb' 0 32

/-- The command word of the three fields (30 R35). -/
def cmdWord (op : BitVec 8) (a b : Word) : CmdWord :=
  (op.setWidth 72 <<< 64) ||| (a.setWidth 72 <<< 32) ||| b.setWidth 72

/-- Why a command word is no command (30 R40, R41, 60 R137). -/
inductive DecodeError where
  /-- `op` is none of the 25 opcodes (30 R40) -/
  | unknownOpcode (op : BitVec 8)
  /-- the opcode is known and a must-be-zero bit is 1 (30 R41) -/
  | mustBeZero (op : BitVec 8)
  deriving DecidableEq, Repr

/-- The low byte of an operand field (30 R38). -/
def lowByte (v : Word) : Byte := v.extractLsb' 0 8

/-- The bits of an operand field above a byte (30 R37: `a[31:8]`, `b[31:8]`). -/
def aboveByte (v : Word) : BitVec 24 := v.extractLsb' 8 24

/-- The index `b[5:0]` (30 R38). -/
def lowIndex (v : Word) : Nat := (v.extractLsb' 0 6).toNat

/-- The bits of `b` above an index (30 R37: `b[31:6]`). -/
def aboveIndex (v : Word) : BitVec 26 := v.extractLsb' 6 26

/-- A byte operand in its field, the upper 24 bits zero (30 R38). -/
def byteOperand (x : Byte) : Word := x.setWidth 32

/-- An index operand in its field, the upper bits zero (30 R38). -/
def indexOperand (idx : Nat) : Word := (BitVec.ofNat 6 idx).setWidth 32

/-- Format N: no operands (30 R37). -/
def formatN (op : BitVec 8) (a b : Word) (i : Instr) : Except DecodeError Instr :=
  if a = 0 ∧ b = 0 then .ok i else .error (.mustBeZero op)

/-- Format B1: a byte in `a` (30 R37). -/
def formatB1 (op : BitVec 8) (a b : Word) (f : Byte → Instr) : Except DecodeError Instr :=
  if aboveByte a = 0 ∧ b = 0 then .ok (f (lowByte a)) else .error (.mustBeZero op)

/-- Format B2: a byte in `a` and a byte in `b` (30 R37). -/
def formatB2 (op : BitVec 8) (a b : Word) (f : Byte → Byte → Instr) : Except DecodeError Instr :=
  if aboveByte a = 0 ∧ aboveByte b = 0 then .ok (f (lowByte a) (lowByte b)) else .error (.mustBeZero op)

/-- Format W1: a Word in `a` (30 R37). -/
def formatW1 (op : BitVec 8) (a b : Word) (f : Word → Instr) : Except DecodeError Instr :=
  if b = 0 then .ok (f a) else .error (.mustBeZero op)

/-- Format W2: a Word in `a` and a Word in `b`; no must-be-zero bits (30 R37). -/
def formatW2 (a b : Word) (f : Word → Word → Instr) : Except DecodeError Instr := .ok (f a b)

/-- Format I: an index in `b[5:0]` (30 R37). -/
def formatI (op : BitVec 8) (a b : Word) (f : Nat → Instr) : Except DecodeError Instr :=
  if a = 0 ∧ aboveIndex b = 0 then .ok (f (lowIndex b)) else .error (.mustBeZero op)

/-- Format WI: a Word in `a` and an index in `b[5:0]` (30 R37). -/
def formatWI (op : BitVec 8) (a b : Word) (f : Nat → Word → Instr) : Except DecodeError Instr :=
  if aboveIndex b = 0 then .ok (f (lowIndex b) a) else .error (.mustBeZero op)

/-- The decoder: total on the 2^72 command words (30 R39 to R42). -/
def decode (c : CmdWord) : Except DecodeError Instr :=
  let op := opField c
  let a := aField c
  let b := bField c
  match op with
  | 0x01#8 => formatN op a b .rdstat
  | 0x10#8 => formatB2 op a b .gfadd
  | 0x11#8 => formatB2 op a b .gfmul
  | 0x12#8 => formatB2 op a b .gfpow
  | 0x13#8 => formatB1 op a b .gfinv
  | 0x20#8 => formatB1 op a b .sbox
  | 0x21#8 => formatB1 op a b .isbox
  | 0x30#8 => formatW2 a b .wmul
  | 0x40#8 => formatN op a b .subbytes
  | 0x41#8 => formatN op a b .invsubbytes
  | 0x42#8 => formatN op a b .shiftrows
  | 0x43#8 => formatN op a b .invshiftrows
  | 0x44#8 => formatN op a b .mixcolumns
  | 0x45#8 => formatN op a b .invmixcolumns
  | 0x46#8 => formatI op a b .addroundkey
  | 0x48#8 => formatWI op a b .lds
  | 0x49#8 => formatI op a b .rds
  | 0x50#8 => formatW1 op a b .rotword
  | 0x51#8 => formatW1 op a b .subword
  | 0x52#8 => formatB1 op a b .rcon
  | 0x54#8 => formatWI op a b .ldkey
  | 0x55#8 => formatN op a b .keyexpand
  | 0x56#8 => formatI op a b .rdw
  | 0x60#8 => formatN op a b .encrypt
  | 0x61#8 => formatN op a b .decrypt
  | _ => .error (.unknownOpcode op)

/-- The encoder: the command word of a command (30 R35 to R39). -/
def encode : Instr → CmdWord
  | .rdstat => cmdWord 0x01#8 0 0
  | .gfadd x y => cmdWord 0x10#8 (byteOperand x) (byteOperand y)
  | .gfmul x y => cmdWord 0x11#8 (byteOperand x) (byteOperand y)
  | .gfpow x y => cmdWord 0x12#8 (byteOperand x) (byteOperand y)
  | .gfinv x => cmdWord 0x13#8 (byteOperand x) 0
  | .sbox x => cmdWord 0x20#8 (byteOperand x) 0
  | .isbox x => cmdWord 0x21#8 (byteOperand x) 0
  | .wmul w v => cmdWord 0x30#8 w v
  | .subbytes => cmdWord 0x40#8 0 0
  | .invsubbytes => cmdWord 0x41#8 0 0
  | .shiftrows => cmdWord 0x42#8 0 0
  | .invshiftrows => cmdWord 0x43#8 0 0
  | .mixcolumns => cmdWord 0x44#8 0 0
  | .invmixcolumns => cmdWord 0x45#8 0 0
  | .addroundkey idx => cmdWord 0x46#8 0 (indexOperand idx)
  | .lds idx w => cmdWord 0x48#8 w (indexOperand idx)
  | .rds idx => cmdWord 0x49#8 0 (indexOperand idx)
  | .rotword w => cmdWord 0x50#8 w 0
  | .subword w => cmdWord 0x51#8 w 0
  | .rcon x => cmdWord 0x52#8 (byteOperand x) 0
  | .ldkey idx w => cmdWord 0x54#8 w (indexOperand idx)
  | .keyexpand => cmdWord 0x55#8 0 0
  | .rdw idx => cmdWord 0x56#8 0 (indexOperand idx)
  | .encrypt => cmdWord 0x60#8 0 0
  | .decrypt => cmdWord 0x61#8 0 0

/-- One row of the opcode table: a command word `c` selects it when `c &&& mask = pattern` (30 R39). -/
structure Row where
  mnemonic : String
  pattern : CmdWord
  mask : CmdWord
  deriving DecidableEq, Repr

/-- The mask covers `op` and every must-be-zero bit (30 R39); one mask per format (30 R37). -/
def maskN : CmdWord := 0xFFFFFFFFFFFFFFFFFF#72
def maskB1 : CmdWord := 0xFFFFFFFF00FFFFFFFF#72
def maskB2 : CmdWord := 0xFFFFFFFF00FFFFFF00#72
def maskW1 : CmdWord := 0xFF00000000FFFFFFFF#72
def maskW2 : CmdWord := 0xFF0000000000000000#72
def maskI : CmdWord := 0xFFFFFFFFFFFFFFFFC0#72
def maskWI : CmdWord := 0xFF00000000FFFFFFC0#72

/-- The system, field, S-box and Word rows of 30 R39. -/
def arithmeticRows : List Row :=
  [⟨"RDSTAT", 0x010000000000000000#72, maskN⟩,
   ⟨"GFADD", 0x100000000000000000#72, maskB2⟩,
   ⟨"GFMUL", 0x110000000000000000#72, maskB2⟩,
   ⟨"GFPOW", 0x120000000000000000#72, maskB2⟩,
   ⟨"GFINV", 0x130000000000000000#72, maskB1⟩,
   ⟨"SBOX", 0x200000000000000000#72, maskB1⟩,
   ⟨"ISBOX", 0x210000000000000000#72, maskB1⟩,
   ⟨"WMUL", 0x300000000000000000#72, maskW2⟩]

/-- The state rows of 30 R39. -/
def stateRows : List Row :=
  [⟨"SUBBYTES", 0x400000000000000000#72, maskN⟩,
   ⟨"INVSUBBYTES", 0x410000000000000000#72, maskN⟩,
   ⟨"SHIFTROWS", 0x420000000000000000#72, maskN⟩,
   ⟨"INVSHIFTROWS", 0x430000000000000000#72, maskN⟩,
   ⟨"MIXCOLUMNS", 0x440000000000000000#72, maskN⟩,
   ⟨"INVMIXCOLUMNS", 0x450000000000000000#72, maskN⟩,
   ⟨"ADDROUNDKEY", 0x460000000000000000#72, maskI⟩,
   ⟨"LDS", 0x480000000000000000#72, maskWI⟩,
   ⟨"RDS", 0x490000000000000000#72, maskI⟩]

/-- The key schedule and cipher rows of 30 R39. -/
def keyRows : List Row :=
  [⟨"ROTWORD", 0x500000000000000000#72, maskW1⟩,
   ⟨"SUBWORD", 0x510000000000000000#72, maskW1⟩,
   ⟨"RCON", 0x520000000000000000#72, maskB1⟩,
   ⟨"LDKEY", 0x540000000000000000#72, maskWI⟩,
   ⟨"KEYEXPAND", 0x550000000000000000#72, maskN⟩,
   ⟨"RDW", 0x560000000000000000#72, maskI⟩,
   ⟨"ENCRYPT", 0x600000000000000000#72, maskN⟩,
   ⟨"DECRYPT", 0x610000000000000000#72, maskN⟩]

/-- The 25 rows of 30 R39. -/
def opcodeRows : List Row := arithmeticRows ++ stateRows ++ keyRows

/-- The command word selects the row (30 R39). -/
def Row.selects (r : Row) (c : CmdWord) : Bool := c &&& r.mask == r.pattern

/-- The name of a command (30 R39, R44). -/
def Instr.mnemonic : Instr → String
  | .rdstat => "RDSTAT"
  | .gfadd _ _ => "GFADD"
  | .gfmul _ _ => "GFMUL"
  | .gfpow _ _ => "GFPOW"
  | .gfinv _ => "GFINV"
  | .sbox _ => "SBOX"
  | .isbox _ => "ISBOX"
  | .wmul _ _ => "WMUL"
  | .subbytes => "SUBBYTES"
  | .invsubbytes => "INVSUBBYTES"
  | .shiftrows => "SHIFTROWS"
  | .invshiftrows => "INVSHIFTROWS"
  | .mixcolumns => "MIXCOLUMNS"
  | .invmixcolumns => "INVMIXCOLUMNS"
  | .addroundkey _ => "ADDROUNDKEY"
  | .lds _ _ => "LDS"
  | .rds _ => "RDS"
  | .rotword _ => "ROTWORD"
  | .subword _ => "SUBWORD"
  | .rcon _ => "RCON"
  | .ldkey _ _ => "LDKEY"
  | .keyexpand => "KEYEXPAND"
  | .rdw _ => "RDW"
  | .encrypt => "ENCRYPT"
  | .decrypt => "DECRYPT"

/-- The command word of a table word of `nbits` bits (bit 0 the least significant bit of `b`, every bit from
`nbits` on zero); a number that does not fit 72 bits is no command word. Log entry 12. -/
def tableWord? (nbits w : Nat) : Option CmdWord :=
  let v := w % 2 ^ nbits
  if v < 2 ^ 72 then some (BitVec.ofNat 72 v) else none

/-- The command the decoder reads from a table word. -/
def decodeTableWord (nbits w : Nat) : Option Instr :=
  match tableWord? nbits w with
  | none => none
  | some c => (decode c).toOption

end Sys2Proof
end

