-- ==== Sys2Proof/Config.lean ====
section
/-! DEFINITION. The parameters this hardware fixes (00 R5), the one parameter the spec leaves to the
configuration (00 R6), and the free values of a reset (10 R19, 93 U4). -/

namespace Sys2Proof.Config

/-- `POLY` = x^8+x^4+x^3+x+1; bit `i` is the coefficient of x^i (00 R5). -/
abbrev poly : Nat := 0x11B

/-- `AFFINE_C`, the constant of the S-box affine transform (00 R5, 41 R60). -/
abbrev affineC : Byte := 0x63#8

/-- `Nb`, columns of the state and words of a round key (00 R5). -/
abbrev nb : Nat := 4

/-- `Nr`, rounds (00 R5). -/
abbrev nr : Nat := 10

/-- `Nk`, words of the key (00 R5). -/
abbrev nk : Nat := 4

/-- `NW`, words of the schedule (00 R5). -/
abbrev nw : Nat := 44

/-- `BLOCK_BYTES` (00 R5). -/
abbrev blockBytes : Nat := 16

/-- `KEY_BYTES` (00 R5). -/
abbrev keyBytes : Nat := 16

/-- `RCON_BASE`, the element whose powers are the round constants (00 R5). -/
abbrev rconBase : Byte := 0x02#8

/-- `MIX_FWD`: entry `i` is the coefficient of x^i of {03}x^3+{01}x^2+{01}x+{02} (42 R72). -/
abbrev mixFwd : Vector Byte 4 := #v[0x02#8, 0x01#8, 0x01#8, 0x03#8]

/-- `MIX_INV`: entry `i` is the coefficient of x^i of {0b}x^3+{0d}x^2+{09}x+{0e} (42 R72). -/
abbrev mixInv : Vector Byte 4 := #v[0x0E#8, 0x09#8, 0x0D#8, 0x0B#8]

/-- Which byte of a Word is which power of x (00 R6, 42 R70). -/
inductive WordOrder where
  /-- byte `k` is the coefficient of x^k -/
  | asc
  /-- byte `k` is the coefficient of x^(3-k) -/
  | desc
  deriving DecidableEq, Repr

/-- `WORD_ORDER` as this hardware takes it (00 R6, decision D7). Every function that depends on the order
takes it as an argument; only the commands' meanings use this value. Log entry 5. -/
abbrev wordOrder : WordOrder := .asc

/-- The contents of `S` that the `n`-th reset leaves: unspecified, so a free value (10 R19, 93 U4).
DESIGN CHOICE, log entry 2. -/
opaque unspecifiedS : Nat → Block

/-- The contents of `K` that the `n`-th reset leaves: a free value, as `unspecifiedS`. -/
opaque unspecifiedK : Nat → Key

/-- The contents of `W` that the `n`-th reset leaves: a free value, as `unspecifiedS`. -/
opaque unspecifiedW : Nat → Schedule

end Sys2Proof.Config
end

