-- ==== Sys2Proof/Machine/State.lean ====
section
/-! DEFINITION. The state of the unit, the statuses and responses, the input events, and the state after reset
(10 R10 to R19, 30 R36, R49, 60 R135, 70 R155). -/

namespace Sys2Proof.Machine

/-- The four errors (60 R135). None of them stops the unit: each is a response (60 R142). -/
inductive Err where
  /-- `E_ILLEGAL`: the word selects no row of the opcode table (60 R137) -/
  | illegal
  /-- `E_INDEX`: the index is outside the command's range (60 R138) -/
  | index
  /-- `E_DOMAIN`: operand 0 where the function is not defined (60 R139) -/
  | domain
  /-- `E_NOKEY`: the schedule is needed and `KV` is 0 (60 R140) -/
  | noKey
  deriving DecidableEq, Repr

/-- The status of a response (60 R135). -/
inductive Status where
  /-- `OK`: the command was performed (60 R136) -/
  | ok
  /-- an error status -/
  | error (e : Err)
  deriving DecidableEq, Repr

/-- A response: a status and the 32-bit `r` (30 R36). -/
structure Response where
  status : Status
  r : Word
  deriving DecidableEq, Repr

/-- What the host can do to the unit (30 R49, 60 R143, R145, 70 R155). -/
inductive Input where
  /-- a command word, presented and accepted -/
  | command (c : CmdWord)
  /-- the input `rst`, or power-on, between commands -/
  | reset
  /-- `rst` while the accepted command `c` is in progress: the command is abandoned without a response -/
  | resetDuring (c : CmdWord)
  deriving DecidableEq, Repr

/-- The state. `S`, `K`, `W`, `KV` are the whole architectural state (10 R10 to R13); STATUS is computed from
`KV` (10 R15, `State.status`). `inputs`, `rsp` and `draws` are the model's own (log entries 1, 3, 4). -/
structure State where
  /-- the state register, `S[c][r]` (10 R10) -/
  S : Block
  /-- the key register (10 R11) -/
  K : Key
  /-- the schedule register file (10 R12) -/
  W : Schedule
  /-- the key-valid flag (10 R13) -/
  KV : Bool
  /-- what the host has yet to present, oldest first (30 R49) -/
  inputs : List Input
  /-- the response to the last accepted command, none if a reset has come since (30 R36, R49) -/
  rsp : Option Response
  /-- how many resets have drawn unspecified contents -/
  draws : Nat
  deriving DecidableEq, Repr

/-- No fault: nothing stops the unit, an error is a response (60 R142). Safe: no case is left out. -/
inductive Fault where
  deriving DecidableEq, Repr

/-- Why the model has no meaning for an instruction. -/
inductive Refusal where
  /-- raised by an arm of exec whose instruction has no meaning yet; no arm raises it now. Safe: it stops where
  the unit would go on. -/
  | notModelled (mnemonic : String)
  deriving DecidableEq, Repr

/-- The unit right after reset (10 R19, 70 R155): `KV` is 0, `S`, `K`, `W` hold draw 0 of the free values
(log entry 2), nothing is presented and no response has been given. -/
def State.reset : State where
  S := Config.unspecifiedS 0
  K := Config.unspecifiedK 0
  W := Config.unspecifiedW 0
  KV := false
  inputs := []
  rsp := none
  draws := 1

end Sys2Proof.Machine
end

