-- ==== Sys2Proof/Machine/Flags.lean ====
section
/-! DEFINITION. The one flag `KV` and the one status register STATUS (10 R13, R15). There are no condition codes:
no operation has a carry, a borrow or an overflow (10 R15, 40 R59). -/

namespace Sys2Proof.Machine

/-- The status register: bit 0 is `KV`, bits 31:1 read as 0 (10 R15). -/
def State.status (s : State) : Word := (BitVec.ofBool s.KV).setWidth 32

/-- KEYEXPAND sets `KV`; nothing else does (10 R13). -/
def State.setKV (s : State) : State := { s with KV := true }

/-- LDKEY and reset clear `KV`; nothing else does (10 R13). -/
def State.clearKV (s : State) : State := { s with KV := false }

end Sys2Proof.Machine
end

