-- ==== Sys2Proof/Machine/Operands.lean ====
section
/-! DEFINITION. The operand forms: the bytes of a Word (20 R22), a column as a Word (20 R23), the zero extension
of a byte result (20 R25, 30 R38), the index ranges (20 R27), and the response word (30 R36). -/

namespace Sys2Proof.Machine

/-- `byte(w, k) = w[31-8k : 24-8k]` (20 R22). -/
def byte (w : Word) (k : Fin 4) : Byte := w.extractLsb' (24 - 8 * k.val) 8

/-- `word(b0, b1, b2, b3)`: byte 0 in bits 31:24 (20 R22). -/
def word (b0 b1 b2 b3 : Byte) : Word :=
  (b0.setWidth 32 <<< 24) ||| (b1.setWidth 32 <<< 16) ||| (b2.setWidth 32 <<< 8) ||| b3.setWidth 32

/-- A column as the Word it travels as: row `k` is byte `k` (20 R23). -/
def wordOfColumn (col : Column) : Word := word col[0] col[1] col[2] col[3]

/-- The column that a Word loads: row `k` is byte `k` (20 R23). -/
def columnOfWord (w : Word) : Column := Vector.ofFn (byte w)

/-- A byte result in `r`: zero extended (20 R25, 30 R38). -/
def zext32 (b : Byte) : Word := b.setWidth 32

/-- The index operand, if it is below `n` (20 R27: columns and key words below 4, rounds below 11, schedule
words below 44). -/
def indexBelow (n idx : Nat) : Option (Fin n) := if h : idx < n then some ⟨idx, h⟩ else none

/-- The exclusive or of four bytes (00 R7: `XOR_{j=0..3} t(j)`). -/
def xor4 (t : Fin 4 → Byte) : Byte := t 0 ^^^ t 1 ^^^ t 2 ^^^ t 3

/-- The byte whose bit `i` is `f i` (00 R7: bit 0 the least significant). -/
def byteOfBits (f : Fin 8 → Bool) : Byte := BitVec.ofBoolListLE [f 0, f 1, f 2, f 3, f 4, f 5, f 6, f 7]

/-- The State whose byte at column `c`, row `r` is `f c r` (00 R8: all new bytes are written together). -/
def blockOf (f : Fin 4 → Fin 4 → Byte) : Block := Vector.ofFn fun c => Vector.ofFn fun r => f c r

/-- The State whose block bytes are `B`: byte `n` is `S[n div 4][n mod 4]` (20 R23). -/
def blockOfBytes (B : Vector Byte 16) : Block := blockOf fun c r => B[4 * c.val + r.val]

/-- The key whose bytes are `B`: byte `n` is byte `n mod 4` of `K[n div 4]` (20 R24). -/
def keyOfBytes (B : Vector Byte 16) : Key :=
  Vector.ofFn fun j => word B[4 * j.val] B[4 * j.val + 1] B[4 * j.val + 2] B[4 * j.val + 3]

/-- The code of an error (60 R135). -/
def Err.code : Err → BitVec 4
  | .illegal => 1#4
  | .index => 2#4
  | .domain => 3#4
  | .noKey => 4#4

/-- The code of a status, `RSP[35:32]` (60 R135). -/
def Status.code : Status → BitVec 4
  | .ok => 0#4
  | .error e => e.code

/-- The response word `RSP[35:0]` (30 R36). -/
def Response.rspWord (x : Response) : RspWord := (x.status.code.setWidth 36 <<< 32) ||| x.r.setWidth 36

end Sys2Proof.Machine
end

