-- ==== Sys2Proof/Machine/Ops.lean ====
section
/-! DEFINITION. The operations every meaning shares: reading and writing the three register arrays, ending a
command with a response, raising an error, accepting an input, and the reset event. -/

namespace Sys2Proof.Machine

/-- How a step or a meaning ends. -/
abbrev Result := Host.Outcome State Fault Refusal

/-- Column `c` of the state register as a Word (10 R10, 20 R23). -/
def State.readColumn (s : State) (c : Fin 4) : Word := wordOfColumn s.S[c]

/-- Column `c` of the state register becomes the bytes of `w`; the other twelve bytes stay (43 R87). -/
def State.writeColumn (s : State) (c : Fin 4) (w : Word) : State := { s with S := s.S.set c (columnOfWord w) }

/-- The whole state register is replaced: all reads before all writes (43 R97). -/
def State.writeS (s : State) (T : Block) : State := { s with S := T }

/-- Key word `j` becomes `w` (10 R11). -/
def State.writeKeyWord (s : State) (j : Fin 4) (w : Word) : State := { s with K := s.K.set j w }

/-- All 44 words of the schedule are replaced in one step (10 R12). -/
def State.writeW (s : State) (w : Schedule) : State := { s with W := w }

/-- `respond(st, v)`: end the command with one response (00 R8, 30 R36). -/
def State.respond (s : State) (st : Status) (v : Word) : Result := .next { s with rsp := some ⟨st, v⟩ }

/-- `respond(OK, v)` (60 R136). -/
def State.ok (s : State) (v : Word) : Result := s.respond .ok v

/-- `raise <Error>`, this hardware's one form of exception: end the command with the error's status and
`r = 0`. It is applied to the state at the command's entry, so no architectural state is written; nothing
is saved and control goes nowhere (00 R8, 60 R142). There is no return from it (60 R144). -/
def State.raise (s : State) (e : Err) : Result := s.respond (.error e) 0

/-- Perform `f` if a schedule is valid, else `E_NOKEY` (10 R13, 60 R140). -/
def State.withKey (s : State) (f : Result) : Result := if s.KV then f else s.raise .noKey

/-- Perform `f` on the index if it is below `n`, else `E_INDEX` (20 R27, 60 R138). -/
def State.withIndex (s : State) (n idx : Nat) (f : Fin n → Result) : Result :=
  match indexBelow n idx with
  | none => s.raise .index
  | some i => f i

/-- The next input, and the state once it is accepted; none when the host presents nothing (30 R49). -/
def State.accept? (s : State) : Option (Input × State) :=
  match s.inputs with
  | [] => none
  | x :: rest => some (x, { s with inputs := rest })

/-- The reset event: `KV` is cleared, `S`, `K`, `W` become unspecified (the next draw of the free values), no
response is given (10 R19, 60 R143, 70 R155). -/
def State.resetEvent (s : State) : State :=
  { s with
    S := Config.unspecifiedS s.draws
    K := Config.unspecifiedK s.draws
    W := Config.unspecifiedW s.draws
    KV := false
    rsp := none
    draws := s.draws + 1 }

/-- The host presents the command word `c` as the next input (30 R49). -/
def State.present (s : State) (c : CmdWord) : State := { s with inputs := .command c :: s.inputs }

/-- A word that is no command: the decoder's reasons all answer `E_ILLEGAL` (60 R137). -/
def errOfDecode : DecodeError → Err
  | .unknownOpcode _ => .illegal
  | .mustBeZero _ => .illegal

/-- One step of a unit whose commands are performed by `perform`: it accepts the oldest input and performs it to
completion (20 R28, R29, 30 R48, R49). A word that is no command answers `E_ILLEGAL` (60 R137); a reset gives no
response, and a command it cuts short is abandoned (60 R143, 70 R155); with nothing presented the unit keeps
its state (60 R152). -/
def State.stepWith (s : State) (perform : Instr → State → Result) : Result :=
  match s.accept? with
  | none => .next s
  | some (.reset, s') => .next s'.resetEvent
  | some (.resetDuring _, s') => .next s'.resetEvent
  | some (.command c, s') =>
    match decode c with
    | .error e => s'.raise (errOfDecode e)
    | .ok i => perform i s'

end Sys2Proof.Machine
end

