-- ==== Sys2Proof/Machine/Field.lean ====
section
/-! DEFINITION. Field Arithmetic: GF(2^8) modulo 0x11B, and GFADD, GFMUL, GFPOW, GFINV (40). -/

namespace Sys2Proof.Machine

/-- `gf_add`: bitwise exclusive or (40 R51). -/
def gfAdd (a b : Byte) : Byte := a ^^^ b

/-- Multiply by x: shift, and reduce by `POLY` if bit 7 goes out (40 R52). The byte added is `POLY` without its
top bit, 0x1B. -/
def xtime (t : Byte) : Byte := if t.getLsbD 7 then (t <<< 1) ^^^ BitVec.ofNat 8 Config.poly else t <<< 1

/-- `n` steps of the shift-and-reduce loop of 40 R52: `t` is the multiplicand times a power of x, `u` what is
left of the multiplier, `p` the product so far. -/
def gfMulLoop : Nat → Byte → Byte → Byte → Byte
  | 0, _, _, p => p
  | n + 1, t, u, p => gfMulLoop n (xtime t) (u >>> 1) (if u.getLsbD 0 then p ^^^ t else p)

/-- `gf_mul`: the product modulo x^8+x^4+x^3+x+1, by eight steps of shift-and-reduce (40 R52). -/
def gfMul (a b : Byte) : Byte := gfMulLoop 8 a b 0

/-- `gf_pow`: `a^0 = 1` for every `a`, `a^(n+1) = a^n • a` (40 R53). -/
def gfPow (a : Byte) : Nat → Byte
  | 0 => 0x01#8
  | n + 1 => gfMul (gfPow a n) a

/-- The extended Euclidean algorithm on polynomials over GF(2), kept as numbers whose bit `i` is the coefficient
of x^i: `u` and `v` are the two remainders, `g` and `h` the multipliers with `g • a = u` and `h • a = v`
modulo `POLY`. It ends when `u` is the polynomial 1 (40 R54). -/
def gfEuclid : Nat → Nat → Nat → Nat → Nat → Nat
  | 0, _, _, g, _ => g
  | n + 1, u, v, g, h =>
    if u = 1 then g
    else if u < v then gfEuclid n v u h g
    else gfEuclid n (u ^^^ v <<< (u.log2 - v.log2)) v (g ^^^ h <<< (u.log2 - v.log2)) h

/-- `gf_inv`: the one `b` with `a • b = 1`, found by the extended Euclidean algorithm; no value at 0 (40 R54,
93 U1, log entry 6). -/
def gfInv (a : Byte) : Option Byte :=
  if a = 0 then none else some (BitVec.ofNat 8 (gfEuclid 32 a.toNat Config.poly 1 0))

/-- GFADD x, y (40 R55). -/
def execGfadd (x y : Byte) (s : State) : Result := s.ok (zext32 (gfAdd x y))

/-- GFMUL x, y (40 R56). -/
def execGfmul (x y : Byte) (s : State) : Result := s.ok (zext32 (gfMul x y))

/-- GFPOW x, y: the exponent is the byte `y` as an unsigned number (40 R57). -/
def execGfpow (x y : Byte) (s : State) : Result := s.ok (zext32 (gfPow x y.toNat))

/-- GFINV x: `E_DOMAIN` at 0, where the inverse has no value (40 R58). -/
def execGfinv (x : Byte) (s : State) : Result :=
  match gfInv x with
  | none => s.raise .domain
  | some b => s.ok (zext32 b)

end Sys2Proof.Machine
end

