-- ==== Sys2Proof/Machine/SBox.lean ====
section
/-! DEFINITION. The S-box generator, computed from the field inverse and an affine map of bits, and SBOX, ISBOX
(41). -/

namespace Sys2Proof.Machine

/-- Bit `(i + k) mod 8` of a byte (41 R60). -/
def bitAt (m : Byte) (i k : Fin 8) : Bool := m.getLsbD (i + k).val

/-- `affine`: output bit `i` is the exclusive or of bits `i, i+4, i+5, i+6, i+7` mod 8 of `m` and bit `i` of
0x63 (41 R60). -/
def affine (m : Byte) : Byte :=
  byteOfBits fun i =>
    bitAt m i 0 ^^ bitAt m i 4 ^^ bitAt m i 5 ^^ bitAt m i 6 ^^ bitAt m i 7 ^^ bitAt Config.affineC i 0

/-- `inv_affine`: output bit `i` is the exclusive or of bits `i+2, i+5, i+7` mod 8 of `b ^ 0x63` (41 R62). -/
def invAffine (b : Byte) : Byte :=
  let t := b ^^^ Config.affineC
  byteOfBits fun i => bitAt t i 2 ^^ bitAt t i 5 ^^ bitAt t i 7

/-- The inverse with zero sent to zero, which only the S-box may use (40 R54, 41 R61, R63). -/
def invOrZero (b : Byte) : Byte :=
  match gfInv b with
  | none => 0x00#8
  | some m => m

/-- `sbox`: the inverse, zero kept, then the affine map (41 R61). -/
def sbox (b : Byte) : Byte := affine (invOrZero b)

/-- `inv_sbox`: the inverse affine map, then the inverse, zero kept (41 R63, 90 C7). -/
def invSbox (b : Byte) : Byte := invOrZero (invAffine b)

/-- SBOX x (41 R64). -/
def execSbox (x : Byte) (s : State) : Result := s.ok (zext32 (sbox x))

/-- ISBOX x (41 R65). -/
def execIsbox (x : Byte) (s : State) : Result := s.ok (zext32 (invSbox x))

end Sys2Proof.Machine
end

