-- ==== Sys2Proof/Machine/WordArith.lean ====
section
/-! DEFINITION. Word Arithmetic: the product of two Words modulo x^4+1, its two constants, and WMUL (42). -/

namespace Sys2Proof.Machine

open Sys2Proof.Config (WordOrder)

/-- `deg(k)`: the power of x that byte `k` of a Word carries (42 R70). -/
def degOf : WordOrder → Fin 4 → Fin 4
  | .asc, k => k
  | .desc, k => 3 - k

/-- `rho` (42 R71). -/
def rho : WordOrder → Fin 4
  | .asc => 0
  | .desc => 3

/-- `word_mul`: `o[m] = XOR_{j=0..3} gf_mul(v[(m - j + rho) mod 4], w[j])` (42 R71). -/
def wordMul (ord : WordOrder) (w v : Word) : Word :=
  let o (m : Fin 4) : Byte := xor4 fun j => gfMul (byte v (m - j + rho ord)) (byte w j)
  word (o 0) (o 1) (o 2) (o 3)

/-- The Word of the polynomial whose coefficient of x^i is `p[i]` (42 R70). -/
def wordOfPoly (ord : WordOrder) (p : Vector Byte 4) : Word :=
  word p[degOf ord 0] p[degOf ord 1] p[degOf ord 2] p[degOf ord 3]

/-- `FWD_CONST` (42 R72). -/
def fwdConst (ord : WordOrder) : Word := wordOfPoly ord Config.mixFwd

/-- `INV_CONST` (42 R72). -/
def invConst (ord : WordOrder) : Word := wordOfPoly ord Config.mixInv

/-- `word_xor`: the exclusive or of the two 32-bit values (42 R73). -/
def wordXor (w v : Word) : Word := w ^^^ v

/-- WMUL w, v under an order (42 R74, 00 R6). -/
def wmulUnder (ord : WordOrder) (w v : Word) (s : State) : Result := s.ok (wordMul ord w v)

/-- WMUL w, v (42 R74). -/
def execWmul (w v : Word) (s : State) : Result := wmulUnder Config.wordOrder w v s

end Sys2Proof.Machine
end

