-- ==== Sys2Proof/Machine/KeySchedule.lean ====
section
/-! DEFINITION. The Key Schedule: RotWord, SubWord, Rcon, the expansion of a key to 44 Words, and ROTWORD,
SUBWORD, RCON, LDKEY, KEYEXPAND, RDW (44). Nothing here depends on `WORD_ORDER`. -/

namespace Sys2Proof.Machine

/-- `rot_word`: the bytes rotate left by one, byte 1 becomes byte 0 (44 R100). -/
def rotWord (w : Word) : Word := word (byte w 1) (byte w 2) (byte w 3) (byte w 0)

/-- `sub_word`: the forward S-box on each byte (44 R101). -/
def subWord (w : Word) : Word := word (sbox (byte w 0)) (sbox (byte w 1)) (sbox (byte w 2)) (sbox (byte w 3))

/-- `rcon(n)` for `n >= 1`; not defined at 0 (44 R102, 93 U2). -/
def rcon? : Nat → Option Word
  | 0 => none
  | n + 1 => some (word (gfPow Config.rconBase n) 0x00#8 0x00#8 0x00#8)

/-- `temp` of the expansion at word `i`, from word `i - 1`: rotate, then substitute, then Rcon, at every fourth
word. `i div 4` is at least 1 where the expansion uses it (44 R103). -/
def expandTemp (i : Nat) (prev : Word) : Word :=
  if i % 4 = 0 then
    match rcon? (i / 4) with
    | none => prev
    | some rc => wordXor (subWord (rotWord prev)) rc
  else prev

/-- The `n` words of the schedule from word `i` on, given the four before it, oldest first (44 R103). -/
def expandFrom : Nat → Nat → Word → Word → Word → Word → List Word
  | 0, _, _, _, _, _ => []
  | n + 1, i, w0, w1, w2, w3 =>
    let w := wordXor w0 (expandTemp i w3)
    w :: expandFrom n (i + 1) w1 w2 w3 w

/-- There are `n` of them. -/
theorem expandFrom_length (n i : Nat) (w0 w1 w2 w3 : Word) : (expandFrom n i w0 w1 w2 w3).length = n := by
  induction n generalizing i w0 w1 w2 w3 with
  | zero => rfl
  | succ n ih => simp [expandFrom, ih]

/-- `expand_key`: words 0..3 are the key, words 4..43 follow by the recurrence (44 R103). -/
def expandKey (k : Key) : Schedule :=
  ⟨(k[0] :: k[1] :: k[2] :: k[3] :: expandFrom 40 4 k[0] k[1] k[2] k[3]).toArray, by simp [expandFrom_length]⟩

/-- ROTWORD w (44 R104). -/
def execRotword (w : Word) (s : State) : Result := s.ok (rotWord w)

/-- SUBWORD w (44 R105). -/
def execSubword (w : Word) (s : State) : Result := s.ok (subWord w)

/-- RCON x: `E_DOMAIN` at 0 (44 R106). -/
def execRcon (x : Byte) (s : State) : Result :=
  match rcon? x.toNat with
  | none => s.raise .domain
  | some w => s.ok w

/-- LDKEY idx, w: the key word is written and `KV` cleared, even if the word already held the value (44 R107). -/
def execLdkey (idx : Nat) (w : Word) (s : State) : Result :=
  s.withIndex 4 idx fun j => (s.writeKeyWord j w).clearKV.ok 0

/-- KEYEXPAND (44 R108). -/
def execKeyexpand (s : State) : Result := (s.writeW (expandKey s.K)).setKV.ok 0

/-- RDW idx: the index is checked before the key (44 R109, 60 R141). -/
def execRdw (idx : Nat) (s : State) : Result :=
  s.withIndex 44 idx fun i => s.withKey (s.ok s.W[i])

end Sys2Proof.Machine
end

