-- ==== Sys2Proof/Machine/StateTransforms.lean ====
section
/-! DEFINITION. The State Transform Engine: the seven transforms as functions from a State to a State, and the
nine commands that move a column or transform `S` (43). Each transform reads the old State only (43 R97). -/

namespace Sys2Proof.Machine

open Sys2Proof.Config (WordOrder)

/-- `sub_bytes` (43 R80). -/
def subBytes (T : Block) : Block := blockOf fun c r => sbox T[c][r]

/-- `inv_sub_bytes` (43 R81). -/
def invSubBytes (T : Block) : Block := blockOf fun c r => invSbox T[c][r]

/-- `shift_rows`: the new value at `(c, r)` is the old value at `((c + r) mod 4, r)` (43 R82). -/
def shiftRows (T : Block) : Block := blockOf fun c r => T[c + r][r]

/-- `inv_shift_rows`: the new value at `(c, r)` is the old value at `((c + 4 - r) mod 4, r)` (43 R83). -/
def invShiftRows (T : Block) : Block := blockOf fun c r => T[c - r][r]

/-- Every column times one constant Word (43 R84, R85). -/
def mulColumns (ord : WordOrder) (k : Word) (T : Block) : Block :=
  blockOf fun c r => byte (wordMul ord (wordOfColumn T[c]) k) r

/-- `mix_columns` (43 R84). -/
def mixColumns (ord : WordOrder) (T : Block) : Block := mulColumns ord (fwdConst ord) T

/-- `inv_mix_columns`: the inverse constant and no rotation (43 R85, 90 C3). -/
def invMixColumns (ord : WordOrder) (T : Block) : Block := mulColumns ord (invConst ord) T

/-- `add_round_key`: Word `c` of the round key meets column `c`, its byte `r` row `r` (43 R86). -/
def addRoundKey (T : Block) (k : Key) : Block := blockOf fun c r => T[c][r] ^^^ byte k[c] r

/-- Round key `k` of a schedule: words `[4k, 4k+4)` (44 R111). -/
def roundKey (w : Schedule) (k : Fin 11) : Key := Vector.ofFn fun c : Fin 4 => w[4 * k.val + c.val]

/-- `ark(T, w, k)` (45, opening). -/
def ark (T : Block) (w : Schedule) (k : Fin 11) : Block := addRoundKey T (roundKey w k)

/-- LDS idx, w (43 R87). -/
def execLds (idx : Nat) (w : Word) (s : State) : Result :=
  s.withIndex 4 idx fun c => (s.writeColumn c w).ok 0

/-- RDS idx (43 R88). -/
def execRds (idx : Nat) (s : State) : Result :=
  s.withIndex 4 idx fun c => s.ok (s.readColumn c)

/-- SUBBYTES (43 R89). -/
def execSubbytes (s : State) : Result := (s.writeS (subBytes s.S)).ok 0

/-- INVSUBBYTES (43 R90). -/
def execInvsubbytes (s : State) : Result := (s.writeS (invSubBytes s.S)).ok 0

/-- SHIFTROWS (43 R91). -/
def execShiftrows (s : State) : Result := (s.writeS (shiftRows s.S)).ok 0

/-- INVSHIFTROWS (43 R92). -/
def execInvshiftrows (s : State) : Result := (s.writeS (invShiftRows s.S)).ok 0

/-- MIXCOLUMNS under an order (43 R84, R93, 00 R6). -/
def mixcolumnsUnder (ord : WordOrder) (s : State) : Result := (s.writeS (mixColumns ord s.S)).ok 0

/-- MIXCOLUMNS (43 R93). -/
def execMixcolumns (s : State) : Result := mixcolumnsUnder Config.wordOrder s

/-- INVMIXCOLUMNS under an order (43 R85, R94, 00 R6). -/
def invmixcolumnsUnder (ord : WordOrder) (s : State) : Result := (s.writeS (invMixColumns ord s.S)).ok 0

/-- INVMIXCOLUMNS (43 R94). -/
def execInvmixcolumns (s : State) : Result := invmixcolumnsUnder Config.wordOrder s

/-- ADDROUNDKEY idx: the index is checked before the key (43 R95, 60 R141). -/
def execAddroundkey (idx : Nat) (s : State) : Result :=
  s.withIndex 11 idx fun k => s.withKey ((s.writeS (ark s.S s.W k)).ok 0)

end Sys2Proof.Machine
end

