-- ==== Sys2Proof/Machine/Cipher.lean ====
section
/-! DEFINITION. The Cipher Driver: the encrypt and decrypt sequences over one State, and ENCRYPT, DECRYPT (45). -/

namespace Sys2Proof.Machine

open Sys2Proof.Config (WordOrder)

/-- The full rounds, 1 to 9 (45 R120; 90 C8: both ends inclusive). -/
def fullRounds : List (Fin 11) := [1, 2, 3, 4, 5, 6, 7, 8, 9]

/-- A full round of encryption (45 R120). -/
def encryptRound (ord : WordOrder) (w : Schedule) (T : Block) (k : Fin 11) : Block :=
  ark (mixColumns ord (shiftRows (subBytes T))) w k

/-- A full round of decryption: the round key before the inverse MixColumns (45 R121). -/
def decryptRound (ord : WordOrder) (w : Schedule) (T : Block) (k : Fin 11) : Block :=
  invMixColumns ord (ark (invSubBytes (invShiftRows T)) w k)

/-- `encrypt_block` (45 R120): no MixColumns in the final round. -/
def encryptBlock (ord : WordOrder) (T : Block) (w : Schedule) : Block :=
  ark (shiftRows (subBytes (fullRounds.foldl (encryptRound ord w) (ark T w 0)))) w 10

/-- `decrypt_block` (45 R121): the schedule is read from the top and not transformed. -/
def decryptBlock (ord : WordOrder) (T : Block) (w : Schedule) : Block :=
  ark (invSubBytes (invShiftRows (fullRounds.reverse.foldl (decryptRound ord w) (ark T w 10)))) w 0

/-- ENCRYPT under an order (45 R122, 00 R6). -/
def encryptUnder (ord : WordOrder) (s : State) : Result := s.withKey ((s.writeS (encryptBlock ord s.S s.W)).ok 0)

/-- DECRYPT under an order (45 R123, 00 R6). -/
def decryptUnder (ord : WordOrder) (s : State) : Result := s.withKey ((s.writeS (decryptBlock ord s.S s.W)).ok 0)

/-- ENCRYPT (45 R122). -/
def execEncrypt (s : State) : Result := encryptUnder Config.wordOrder s

/-- DECRYPT (45 R123). -/
def execDecrypt (s : State) : Result := decryptUnder Config.wordOrder s

end Sys2Proof.Machine
end

