-- ==== Sys2Proof/Machine/System.lean ====
section
/-! DEFINITION. The one system command, RDSTAT (46). -/

namespace Sys2Proof.Machine

/-- RDSTAT: `r` is the STATUS register, with or without a key (46 R130). -/
def execRdstat (s : State) : Result := s.ok s.status

end Sys2Proof.Machine
end

