-- ==== Sys2Proof/Machine/Dispatch.lean ====
section
/-! DEFINITION. One arm per command (30 R39). -/

namespace Sys2Proof.Machine

def exec (i : Instr) (s : State) : Host.Outcome State Fault Refusal :=
  match i with
  | .rdstat => Sys2Proof.Machine.execRdstat s
  | .gfadd x y => Sys2Proof.Machine.execGfadd x y s
  | .gfmul x y => Sys2Proof.Machine.execGfmul x y s
  | .gfpow x y => Sys2Proof.Machine.execGfpow x y s
  | .gfinv x => Sys2Proof.Machine.execGfinv x s
  | .sbox x => Sys2Proof.Machine.execSbox x s
  | .isbox x => Sys2Proof.Machine.execIsbox x s
  | .wmul w v => Sys2Proof.Machine.execWmul w v s
  | .subbytes => Sys2Proof.Machine.execSubbytes s
  | .invsubbytes => Sys2Proof.Machine.execInvsubbytes s
  | .shiftrows => Sys2Proof.Machine.execShiftrows s
  | .invshiftrows => Sys2Proof.Machine.execInvshiftrows s
  | .mixcolumns => Sys2Proof.Machine.execMixcolumns s
  | .invmixcolumns => Sys2Proof.Machine.execInvmixcolumns s
  | .addroundkey idx => Sys2Proof.Machine.execAddroundkey idx s
  | .lds idx w => Sys2Proof.Machine.execLds idx w s
  | .rds idx => Sys2Proof.Machine.execRds idx s
  | .rotword w => Sys2Proof.Machine.execRotword w s
  | .subword w => Sys2Proof.Machine.execSubword w s
  | .rcon x => Sys2Proof.Machine.execRcon x s
  | .ldkey idx w => Sys2Proof.Machine.execLdkey idx w s
  | .keyexpand => Sys2Proof.Machine.execKeyexpand s
  | .rdw idx => Sys2Proof.Machine.execRdw idx s
  | .encrypt => Sys2Proof.Machine.execEncrypt s
  | .decrypt => Sys2Proof.Machine.execDecrypt s

end Sys2Proof.Machine
end

