-- ==== Sys2Proof/Machine/Step.lean ====
section
/-! DEFINITION. One step: the unit accepts the oldest input and performs it to completion, or is idle (20 R28,
R29, 30 R48, R49, 60 R152; State.stepWith). -/

namespace Sys2Proof.Machine

/-- One command is one step (20 R28), of this hardware's commands. -/
def step (s : State) : Host.Outcome State Fault Refusal := s.stepWith exec

/-- The state in which the host presents the table word `w` of `nbits` bits next. The unit fetches nothing: a
program is the host's stream of command words (10 R14, log entries 1 and 12). -/
def State.withFetchWord (s : State) (nbits w : Nat) : State :=
  match tableWord? nbits w with
  | none => s
  | some c => s.present c

end Sys2Proof.Machine
end

