-- ==== Sys2Proof/Machine/Assembler.lean ====
section
/-! DEFINITION. The assembler's view of the commands: the pseudo-instructions as the sequences they expand to
(30 R45 to R47), and the one-line form of a command, written and read (30 R44). The syntax is no part of the
hardware (92 D26): nothing in exec or step uses this file. -/

namespace Sys2Proof.Machine

/-- `LDBLK h`: four LDS, columns 0 to 3 in this order (30 R45). -/
def ldblk (h : Vector Byte 16) : List Instr :=
  [.lds 0 (word h[0] h[1] h[2] h[3]), .lds 1 (word h[4] h[5] h[6] h[7]),
   .lds 2 (word h[8] h[9] h[10] h[11]), .lds 3 (word h[12] h[13] h[14] h[15])]

/-- `RDBLK`: four RDS, columns 0 to 3 in this order (30 R46). -/
def rdblk : List Instr := [.rds 0, .rds 1, .rds 2, .rds 3]

/-- The block that the four results of `RDBLK` are: `B(4c+r) = byte(r_c, r)` (30 R46). -/
def bytesOfResults (r : Vector Word 4) : Vector Byte 16 :=
  Vector.ofFn fun n => byte r[n.val / 4] ⟨n.val % 4, Nat.mod_lt _ (by decide)⟩

/-- `LDKEY128 h`: four LDKEY, words 0 to 3 (30 R47). -/
def ldkey128 (h : Vector Byte 16) : List Instr :=
  [.ldkey 0 (word h[0] h[1] h[2] h[3]), .ldkey 1 (word h[4] h[5] h[6] h[7]),
   .ldkey 2 (word h[8] h[9] h[10] h[11]), .ldkey 3 (word h[12] h[13] h[14] h[15])]

/-- `SETKEY h` (30 R47). -/
def setkey (h : Vector Byte 16) : List Instr := ldkey128 h ++ [.keyexpand]

/-- `ENCBLK h` (30 R47). -/
def encblk (h : Vector Byte 16) : List Instr := ldblk h ++ [.encrypt] ++ rdblk

/-- `DECBLK h` (30 R47). -/
def decblk (h : Vector Byte 16) : List Instr := ldblk h ++ [.decrypt] ++ rdblk

/-- An operand as it is written (30 R44). -/
inductive AsmOperand where
  | byte (x : Byte)
  | word (w : Word)
  | index (idx : Nat)
  deriving DecidableEq, Repr

/-- The operands in the order they are written: an index before a Word (30 R44). -/
def asmOperands : Instr → List AsmOperand
  | .gfadd x y => [.byte x, .byte y]
  | .gfmul x y => [.byte x, .byte y]
  | .gfpow x y => [.byte x, .byte y]
  | .gfinv x => [.byte x]
  | .sbox x => [.byte x]
  | .isbox x => [.byte x]
  | .wmul w v => [.word w, .word v]
  | .addroundkey idx => [.index idx]
  | .lds idx w => [.index idx, .word w]
  | .rds idx => [.index idx]
  | .rotword w => [.word w]
  | .subword w => [.word w]
  | .rcon x => [.byte x]
  | .ldkey idx w => [.index idx, .word w]
  | .rdw idx => [.index idx]
  | .rdstat => []
  | .subbytes => []
  | .invsubbytes => []
  | .shiftrows => []
  | .invshiftrows => []
  | .mixcolumns => []
  | .invmixcolumns => []
  | .keyexpand => []
  | .encrypt => []
  | .decrypt => []

/-- A digit as it is written, upper case above 9. -/
def digitChar (d : Nat) : Char := if d < 10 then Char.ofNat (48 + d) else Char.ofNat (55 + d)

/-- The last `n` hexadecimal digits of a number. -/
def hexChars : Nat → Nat → List Char
  | 0, _ => []
  | n + 1, v => hexChars n (v / 16) ++ [digitChar (v % 16)]

/-- The decimal digits of a number below `10 ^ (n + 1)`, with no leading zero. -/
def decChars : Nat → Nat → List Char
  | 0, v => [digitChar (v % 10)]
  | n + 1, v => if v < 10 then [digitChar v] else decChars n (v / 10) ++ [digitChar (v % 10)]

/-- An operand's text: bytes and Words hexadecimal with `0x`, an index decimal (30 R44). -/
def AsmOperand.chars : AsmOperand → List Char
  | .byte x => '0' :: 'x' :: hexChars 2 x.toNat
  | .word w => '0' :: 'x' :: hexChars 8 w.toNat
  | .index idx => decChars 19 idx

/-- The line of a command (30 R44). -/
def asmChars (i : Instr) : List Char :=
  match (asmOperands i).map AsmOperand.chars with
  | [] => i.mnemonic.toList
  | [x] => i.mnemonic.toList ++ ' ' :: x
  | x :: rest => i.mnemonic.toList ++ ' ' :: x ++ rest.flatMap fun y => ',' :: ' ' :: y

/-- The value of a hexadecimal digit of either case. -/
def hexVal? (c : Char) : Option Nat :=
  let n := c.toNat
  if 48 ≤ n ∧ n ≤ 57 then some (n - 48)
  else if 65 ≤ n ∧ n ≤ 70 then some (n - 55)
  else if 97 ≤ n ∧ n ≤ 102 then some (n - 87)
  else none

/-- The value of a non-empty row of digits below `base`. -/
def digits? (base : Nat) (cs : List Char) : Option Nat :=
  if cs = [] then none
  else cs.foldl (fun acc c => acc.bind fun v => (hexVal? c).bind fun d => if d < base then some (v * base + d) else none) (some 0)

/-- A number: hexadecimal with the prefix `0x`, or decimal without it (30 R44). -/
def number? : List Char → Option Nat
  | '0' :: 'x' :: cs => digits? 16 cs
  | cs => digits? 10 cs

/-- A byte operand: a number below 256 (30 R38, R44). -/
def byte? (cs : List Char) : Option Byte :=
  (number? cs).bind fun v => if v < 256 then some (BitVec.ofNat 8 v) else none

/-- An index operand: a number that fits six bits (30 R38, R44). -/
def index? (cs : List Char) : Option Nat := (number? cs).bind fun v => if v < 64 then some v else none

/-- A Word operand: `0x` and 8 hexadecimal digits, first byte first (30 R44). -/
def word? : List Char → Option Word
  | '0' :: 'x' :: cs => if cs.length = 8 then (digits? 16 cs).map (BitVec.ofNat 32) else none
  | _ => none

/-- A block or key: 32 hexadecimal digits, first byte first (30 R45, R47). -/
def bytes16? (cs : List Char) : Option (Vector Byte 16) :=
  if cs.length = 32 then
    (digits? 16 cs).map fun v => Vector.ofFn fun n => BitVec.ofNat 8 (v / 256 ^ (15 - n.val))
  else none

/-- How the operands of a mnemonic are read: one case per format of 30 R44, and the pseudo-instructions. -/
inductive AsmForm where
  | noOperand (i : Instr)
  | oneByte (f : Byte → Instr)
  | twoBytes (f : Byte → Byte → Instr)
  | oneWord (f : Word → Instr)
  | twoWords (f : Word → Word → Instr)
  | oneIndex (f : Nat → Instr)
  | indexWord (f : Nat → Word → Instr)
  | pseudo (l : List Instr)
  | pseudoBytes (f : Vector Byte 16 → List Instr)

/-- The mnemonics of the system, field, S-box and Word families (30 R39). -/
def arithmeticForms : List (String × AsmForm) :=
  [("RDSTAT", .noOperand .rdstat), ("GFADD", .twoBytes .gfadd), ("GFMUL", .twoBytes .gfmul), ("GFPOW", .twoBytes .gfpow),
   ("GFINV", .oneByte .gfinv), ("SBOX", .oneByte .sbox), ("ISBOX", .oneByte .isbox), ("WMUL", .twoWords .wmul)]

/-- The mnemonics of the state family (30 R39). -/
def stateForms : List (String × AsmForm) :=
  [("SUBBYTES", .noOperand .subbytes), ("INVSUBBYTES", .noOperand .invsubbytes), ("SHIFTROWS", .noOperand .shiftrows),
   ("INVSHIFTROWS", .noOperand .invshiftrows), ("MIXCOLUMNS", .noOperand .mixcolumns), ("INVMIXCOLUMNS", .noOperand .invmixcolumns),
   ("ADDROUNDKEY", .oneIndex .addroundkey), ("LDS", .indexWord .lds), ("RDS", .oneIndex .rds)]

/-- The mnemonics of the key schedule and cipher families (30 R39). -/
def keyForms : List (String × AsmForm) :=
  [("ROTWORD", .oneWord .rotword), ("SUBWORD", .oneWord .subword), ("RCON", .oneByte .rcon), ("LDKEY", .indexWord .ldkey),
   ("KEYEXPAND", .noOperand .keyexpand), ("RDW", .oneIndex .rdw), ("ENCRYPT", .noOperand .encrypt), ("DECRYPT", .noOperand .decrypt)]

/-- The pseudo-instructions (30 R45 to R47). -/
def pseudoForms : List (String × AsmForm) :=
  [("LDBLK", .pseudoBytes ldblk), ("RDBLK", .pseudo rdblk), ("LDKEY128", .pseudoBytes ldkey128),
   ("SETKEY", .pseudoBytes setkey), ("ENCBLK", .pseudoBytes encblk), ("DECBLK", .pseudoBytes decblk)]

/-- The commands that a mnemonic of this form stands for with these operand texts. -/
def AsmForm.build : AsmForm → List (List Char) → Option (List Instr)
  | .noOperand i, [] => some [i]
  | .oneByte f, [x] => (byte? x).map fun x => [f x]
  | .twoBytes f, [x, y] => (byte? x).bind fun x => (byte? y).map fun y => [f x y]
  | .oneWord f, [w] => (word? w).map fun w => [f w]
  | .twoWords f, [w, v] => (word? w).bind fun w => (word? v).map fun v => [f w v]
  | .oneIndex f, [x] => (index? x).map fun x => [f x]
  | .indexWord f, [x, w] => (index? x).bind fun x => (word? w).map fun w => [f x w]
  | .pseudo l, [] => some l
  | .pseudoBytes f, [h] => (bytes16? h).map f
  | _, _ => none

/-- Characters with the blanks at both ends taken off. -/
def trimBlanks (cs : List Char) : List Char :=
  let drop := List.dropWhile fun c : Char => c == ' '
  (drop (drop cs).reverse).reverse

/-- A row of characters cut at each `sep`. -/
def cutAt (sep : Char) : List Char → List (List Char)
  | [] => [[]]
  | c :: cs =>
    match cutAt sep cs with
    | [] => [[c]]
    | p :: rest => if c == sep then [] :: p :: rest else (c :: p) :: rest

/-- The commands a line stands for; none if it is no line of the syntax. `;` starts a comment, and a line
without a mnemonic stands for no command (30 R44, log entry 11). -/
def readLine (line : List Char) : Option (List Instr) :=
  let code := trimBlanks (line.takeWhile fun c => c != ';')
  if code = [] then some []
  else
    let name := code.takeWhile fun c => c != ' '
    let rest := trimBlanks (code.dropWhile fun c => c != ' ')
    let operands := if rest = [] then [] else (cutAt ',' rest).map trimBlanks
    match (arithmeticForms ++ stateForms ++ keyForms ++ pseudoForms).find? fun f => f.1.toList = name with
    | none => none
    | some f => f.2.build operands

end Sys2Proof.Machine
end

