-- ==== Sys2Proof/Machine/Under.lean ====
section
/-! DEFINITION. The machine with `WORD_ORDER` as an argument of its configuration (00 R6, 92 D7, 93 U12). Under
`ASC` it is the machine of this hardware (Laws/Under.lean); under `DESC` it is the alternative that the spec
specifies (42 R70 to R72, 43 R84, R85, 96 section 9). Log entry 5. -/

namespace Sys2Proof.Machine

open Sys2Proof.Config (WordOrder)

/-- A command under an order: the five commands that depend on it take it, the others do not (92 D7). -/
def execUnder (ord : WordOrder) (i : Instr) (s : State) : Result :=
  match i with
  | .wmul w v => wmulUnder ord w v s
  | .mixcolumns => mixcolumnsUnder ord s
  | .invmixcolumns => invmixcolumnsUnder ord s
  | .encrypt => encryptUnder ord s
  | .decrypt => decryptUnder ord s
  | .rdstat | .gfadd _ _ | .gfmul _ _ | .gfpow _ _ | .gfinv _ | .sbox _ | .isbox _ | .subbytes | .invsubbytes
  | .shiftrows | .invshiftrows | .addroundkey _ | .lds _ _ | .rds _ | .rotword _ | .subword _ | .rcon _
  | .ldkey _ _ | .keyexpand | .rdw _ => exec i s

/-- One step under an order. -/
def stepUnder (ord : WordOrder) (s : State) : Result := s.stepWith (execUnder ord)

/-- The machine of an order. -/
def coreUnder (ord : WordOrder) : Host.Core where
  State := State
  Fault := Fault
  Refusal := Refusal
  step := stepUnder ord
  reset := State.reset

end Sys2Proof.Machine
end

