-- ==== Sys2Proof/Safety.lean ====
section
/-! DEFINITION. The terms claims are made in: the invariant of the schedule, the states a run from reset can
reach, what one command or a list of commands does, and the forty-command sequences of 45 R125. -/

namespace Sys2Proof

/-! ### What kind of command it is -/

/-- The pure commands: their response is a function of the command word alone (20 R32). -/
def Instr.isPure : Instr → Bool
  | .gfadd _ _ | .gfmul _ _ | .gfpow _ _ | .gfinv _ | .sbox _ | .isbox _ | .wmul _ _ | .rotword _ | .subword _
  | .rcon _ => true
  | .rdstat | .subbytes | .invsubbytes | .shiftrows | .invshiftrows | .mixcolumns | .invmixcolumns
  | .addroundkey _ | .lds _ _ | .rds _ | .ldkey _ _ | .keyexpand | .rdw _ | .encrypt | .decrypt => false

/-- The commands that only read (20 R32). -/
def Instr.isRead : Instr → Bool
  | .rdstat | .rds _ | .rdw _ => true
  | .gfadd _ _ | .gfmul _ _ | .gfpow _ _ | .gfinv _ | .sbox _ | .isbox _ | .wmul _ _ | .rotword _ | .subword _
  | .rcon _ | .subbytes | .invsubbytes | .shiftrows | .invshiftrows | .mixcolumns | .invmixcolumns
  | .addroundkey _ | .lds _ _ | .ldkey _ _ | .keyexpand | .encrypt | .decrypt => false

/-- The commands that write the state register (10 R10). -/
def Instr.writesS : Instr → Bool
  | .lds _ _ | .subbytes | .invsubbytes | .shiftrows | .invshiftrows | .mixcolumns | .invmixcolumns
  | .addroundkey _ | .encrypt | .decrypt => true
  | .rdstat | .rds _ | .rdw _ | .gfadd _ _ | .gfmul _ _ | .gfpow _ _ | .gfinv _ | .sbox _ | .isbox _
  | .wmul _ _ | .rotword _ | .subword _ | .rcon _ | .ldkey _ _ | .keyexpand => false

/-- The commands that write `KV`: set by KEYEXPAND, cleared by LDKEY (10 R13). -/
def Instr.writesKV : Instr → Bool
  | .ldkey _ _ | .keyexpand => true
  | .rdstat | .gfadd _ _ | .gfmul _ _ | .gfpow _ _ | .gfinv _ | .sbox _ | .isbox _ | .wmul _ _ | .subbytes
  | .invsubbytes | .shiftrows | .invshiftrows | .mixcolumns | .invmixcolumns | .addroundkey _ | .lds _ _ | .rds _
  | .rotword _ | .subword _ | .rcon _ | .rdw _ | .encrypt | .decrypt => false

/-- `j` writes what the read `i` looks at: RDSTAT looks at `KV`, RDS at `S`, RDW at `W` and `KV` (10 R10, R12, R13;
KEYEXPAND, the one writer of `W`, writes `KV` too). -/
def Instr.writesWhatReads (j i : Instr) : Bool :=
  match i with
  | .rdstat | .rdw _ => j.writesKV
  | .rds _ => j.writesS
  | .gfadd _ _ | .gfmul _ _ | .gfpow _ _ | .gfinv _ | .sbox _ | .isbox _ | .wmul _ _ | .subbytes | .invsubbytes
  | .shiftrows | .invshiftrows | .mixcolumns | .invmixcolumns | .addroundkey _ | .lds _ _ | .rotword _ | .subword _
  | .rcon _ | .ldkey _ _ | .keyexpand | .encrypt | .decrypt => false

/-- The index of the command is in its range, for the five commands that have one (20 R27). -/
def Instr.indexInRange : Instr → Bool
  | .lds idx _ | .rds idx | .ldkey idx _ => idx ≤ 3
  | .rdw idx => idx ≤ 43
  | .addroundkey idx => idx ≤ 10
  | .rdstat | .gfadd _ _ | .gfmul _ _ | .gfpow _ _ | .gfinv _ | .sbox _ | .isbox _ | .wmul _ _ | .subbytes
  | .invsubbytes | .shiftrows | .invshiftrows | .mixcolumns | .invmixcolumns | .rotword _ | .subword _ | .rcon _
  | .keyexpand | .encrypt | .decrypt => true

/-- The operand is in the domain of the function, for GFINV and RCON (60 R139). -/
def Instr.inDomain : Instr → Bool
  | .gfinv x | .rcon x => x ≠ 0
  | .rdstat | .gfadd _ _ | .gfmul _ _ | .gfpow _ _ | .sbox _ | .isbox _ | .wmul _ _ | .subbytes | .invsubbytes
  | .shiftrows | .invshiftrows | .mixcolumns | .invmixcolumns | .addroundkey _ | .lds _ _ | .rds _ | .rotword _
  | .subword _ | .ldkey _ _ | .keyexpand | .rdw _ | .encrypt | .decrypt => true

/-- The command needs a valid schedule (60 R140). -/
def Instr.needsKey : Instr → Bool
  | .addroundkey _ | .rdw _ | .encrypt | .decrypt => true
  | .rdstat | .gfadd _ _ | .gfmul _ _ | .gfpow _ _ | .gfinv _ | .sbox _ | .isbox _ | .wmul _ _ | .subbytes
  | .invsubbytes | .shiftrows | .invshiftrows | .mixcolumns | .invmixcolumns | .lds _ _ | .rds _ | .rotword _
  | .subword _ | .rcon _ | .ldkey _ _ | .keyexpand => false

/-- The status that the order of checks gives a command: the first check that fails (30 R48, steps 2 to 5). -/
def Instr.statusByChecks (i : Instr) (kv : Bool) : Machine.Status :=
  if ¬ i.indexInRange then .error .index
  else if ¬ i.inDomain then .error .domain
  else if i.needsKey ∧ ¬ kv then .error .noKey
  else .ok

/-- The commands that have no result (60 R136). -/
def Instr.hasNoResult : Instr → Bool
  | .lds _ _ | .ldkey _ _ | .keyexpand | .subbytes | .invsubbytes | .shiftrows | .invshiftrows | .mixcolumns
  | .invmixcolumns | .addroundkey _ | .encrypt | .decrypt => true
  | .rdstat | .gfadd _ _ | .gfmul _ _ | .gfpow _ _ | .gfinv _ | .sbox _ | .isbox _ | .wmul _ _ | .rds _
  | .rotword _ | .subword _ | .rcon _ | .rdw _ => false

/-- The opcodes of 30 R39. -/
def opcodesOfTheSpec : List (BitVec 8) :=
  [0x01#8, 0x10#8, 0x11#8, 0x12#8, 0x13#8, 0x20#8, 0x21#8, 0x30#8, 0x40#8, 0x41#8, 0x42#8, 0x43#8, 0x44#8, 0x45#8,
   0x46#8, 0x48#8, 0x49#8, 0x50#8, 0x51#8, 0x52#8, 0x54#8, 0x55#8, 0x56#8, 0x60#8, 0x61#8]

end Sys2Proof

namespace Sys2Proof.Machine

/-- `KV = 1` implies `W = expand_key(K)` (10 R17). -/
def State.ScheduleValid (s : State) : Prop := s.KV = true → s.W = expandKey s.K

/-- Two states agree on the whole architectural state `S`, `K`, `W`, `KV` (10, opening). -/
def State.SameArch (s t : State) : Prop := t.S = s.S ∧ t.K = s.K ∧ t.W = s.W ∧ t.KV = s.KV

/-- Two states agree on the model's own fields other than the response. -/
def State.SamePorts (s t : State) : Prop := t.inputs = s.inputs ∧ t.draws = s.draws

/-- A state that some run from reset reaches, whatever the host presents (10 R17, 60 R145). -/
inductive Reachable : State → Prop where
  | reset (inputs : List Input) : Reachable { State.reset with inputs := inputs }
  | step (s t : State) : Reachable s → step s = .next t → Reachable t

/-- The step does not stop. -/
def Goes (o : Result) : Prop := ∃ t, o = .next t

/-- The commands performed one after another, each on the state the one before left (20 R29). -/
def execAll : List Instr → State → Result
  | [], s => .next s
  | i :: is, s =>
    match exec i s with
    | .next t => execAll is t
    | .fault r => .fault r
    | .refused r => .refused r

/-- Performed from `s`, the commands write nothing that the read `i` looks at: each is no writer of it, or is answered
with an error and so writes nothing (20 R32, 60 R142). -/
def QuietFor (i : Instr) : List Instr → State → Prop
  | [], _ => True
  | j :: is, s =>
    (j.writesWhatReads i = false ∨ ∃ t e, exec j s = .next t ∧ t.rsp = some ⟨.error e, 0⟩) ∧
      ∀ t, exec j s = .next t → QuietFor i is t

/-- The responses that the commands get, in order (30 R49). -/
def responses : List Instr → State → List (Option Response)
  | [], _ => []
  | i :: is, s =>
    match exec i s with
    | .next t => t.rsp :: responses is t
    | .fault _ => []
    | .refused _ => []

/-- The host presents the commands, as command words, after what it already presents. -/
def State.feed (s : State) (is : List Instr) : State :=
  { s with inputs := s.inputs ++ is.map fun i => .command (encode i) }

/-- The forty commands that ENCRYPT equals (45 R125). -/
def encryptCommands : List Instr :=
  [.addroundkey 0]
    ++ [1, 2, 3, 4, 5, 6, 7, 8, 9].flatMap (fun k => [.subbytes, .shiftrows, .mixcolumns, .addroundkey k])
    ++ [.subbytes, .shiftrows, .addroundkey 10]

/-- The forty commands that DECRYPT equals (45 R125). -/
def decryptCommands : List Instr :=
  [.addroundkey 10]
    ++ [9, 8, 7, 6, 5, 4, 3, 2, 1].flatMap (fun k => [.invshiftrows, .invsubbytes, .addroundkey k, .invmixcolumns])
    ++ [.invshiftrows, .invsubbytes, .addroundkey 0]

/-- The State whose sixteen block bytes, first byte first, are the hexadecimal digits of `n` (20 R23). -/
def hexBlock (n : Nat) : Block := blockOfBytes (Vector.ofFn fun i => BitVec.ofNat 8 (n / 256 ^ (15 - i.val)))

/-- The answer `OK, 0` (30 R36, 60 R136). -/
def okZero : Option Response := some ⟨.ok, 0⟩

/-! ### The encoding of a command, as the unit shows it (30 R37, R39, R41)

The word of the opcode and the operands is performed as the command, and the word of the same opcode with a
must-be-zero bit set is answered `E_ILLEGAL` with no state change. -/

/-- The response `E_ILLEGAL, 0` and no state change (30 R41). -/
def AnswersIllegal (s : State) (c : CmdWord) : Prop :=
  step (s.present c) = .next { s with rsp := some ⟨.error .illegal, 0⟩ }

/-- Format N. -/
def EncodedN (op : BitVec 8) (i : Instr) : Prop :=
  ∀ s : State, step (s.present (cmdWord op 0 0)) = exec i s ∧
    ∀ a b : Word, a ≠ 0 ∨ b ≠ 0 → AnswersIllegal s (cmdWord op a b)

/-- Format B1. -/
def EncodedB1 (op : BitVec 8) (f : Byte → Instr) : Prop :=
  ∀ s : State, (∀ x, step (s.present (cmdWord op (byteOperand x) 0)) = exec (f x) s) ∧
    ∀ a b : Word, aboveByte a ≠ 0 ∨ b ≠ 0 → AnswersIllegal s (cmdWord op a b)

/-- Format B2. -/
def EncodedB2 (op : BitVec 8) (f : Byte → Byte → Instr) : Prop :=
  ∀ s : State, (∀ x y, step (s.present (cmdWord op (byteOperand x) (byteOperand y))) = exec (f x y) s) ∧
    ∀ a b : Word, aboveByte a ≠ 0 ∨ aboveByte b ≠ 0 → AnswersIllegal s (cmdWord op a b)

/-- Format W1. -/
def EncodedW1 (op : BitVec 8) (f : Word → Instr) : Prop :=
  ∀ s : State, (∀ w, step (s.present (cmdWord op w 0)) = exec (f w) s) ∧
    ∀ a b : Word, b ≠ 0 → AnswersIllegal s (cmdWord op a b)

/-- Format W2: no bit must be zero. -/
def EncodedW2 (op : BitVec 8) (f : Word → Word → Instr) : Prop :=
  ∀ (s : State) (w v : Word), step (s.present (cmdWord op w v)) = exec (f w v) s

/-- Format I. -/
def EncodedI (op : BitVec 8) (f : Nat → Instr) : Prop :=
  ∀ s : State, (∀ idx, idx < 64 → step (s.present (cmdWord op 0 (indexOperand idx))) = exec (f idx) s) ∧
    ∀ a b : Word, a ≠ 0 ∨ aboveIndex b ≠ 0 → AnswersIllegal s (cmdWord op a b)

/-- Format WI. -/
def EncodedWI (op : BitVec 8) (f : Nat → Word → Instr) : Prop :=
  ∀ s : State, (∀ idx w, idx < 64 → step (s.present (cmdWord op w (indexOperand idx))) = exec (f idx w) s) ∧
    ∀ a b : Word, aboveIndex b ≠ 0 → AnswersIllegal s (cmdWord op a b)

/-! ### The first product algorithm of 40 R52, in the spec's own steps -/

/-- The carry-less product `a ⊗ b`, 15 bits: `if b[i] == 1: p <- p ^ (a << i)` for `i` in 0..7 (40 R52). -/
def carryless (a b : Byte) : BitVec 15 :=
  [0, 1, 2, 3, 4, 5, 6, 7].foldl (fun p i => if b.getLsbD i then p ^^^ (a.setWidth 15 <<< i) else p) 0

/-- Clear bits 14..8 from the top: `if p[d] == 1: p <- p ^ (0x11B << (d - 8))` (40 R52). -/
def reducePoly (p : BitVec 15) : BitVec 15 :=
  [14, 13, 12, 11, 10, 9, 8].foldl (fun p d => if p.getLsbD d then p ^^^ (0x11B#15 <<< (d - 8)) else p) p

/-! ### Polynomials (42 R70) -/

/-- The coefficient of x^i of the polynomial a Word stands for (42 R70). -/
def coeff (ord : Config.WordOrder) (w : Word) (i : Fin 4) : Byte := byte w (degOf ord i)

end Sys2Proof.Machine
end

