-- ==== Sys2Proof/Certificates/Slice0/Obligations.lean ====
section
/-! DEFINITION. The statements about the unit, most of them the numbered rules of spec/. Each docstring names the
rules it formalises, by file and number. -/

open Sys2Proof Sys2Proof.Machine

/-! ### Encoding -/

/-- Every command is read back from its own command word, with every operand it can carry (30 R35 to R39). -/
def Obligations.DecodeOfEncodeIsTheCommand : Prop :=
  ∀ i : Instr, i.wellFormed = true → decode (encode i) = .ok i

/-- A command word that decodes is the word of the command it decodes to, and the command is well formed: no
two words are one command (30 R37, R39). -/
def Obligations.EncodeOfDecodeIsTheWord : Prop :=
  ∀ (c : CmdWord) (i : Instr), decode c = .ok i → encode i = c ∧ i.wellFormed = true

/-- The decoder agrees with the match and mask table, and no two rows are selected by one word (30 R39). -/
def Obligations.DecoderAgreesWithMatchAndMask : Prop :=
  (∀ (c : CmdWord) (i : Instr), decode c = .ok i →
    ∃ r ∈ opcodeRows, c &&& r.mask = r.pattern ∧ r.mnemonic = i.mnemonic) ∧
  (∀ (c : CmdWord), ∀ r ∈ opcodeRows, c &&& r.mask = r.pattern →
    ∃ i, decode c = .ok i ∧ i.mnemonic = r.mnemonic) ∧
  (∀ (c : CmdWord), ∀ r ∈ opcodeRows, ∀ r' ∈ opcodeRows,
    c &&& r.mask = r.pattern → c &&& r'.mask = r'.pattern → r = r')

/-- Words written out from 30 R35, R37 and R39 decode to what they stand for. -/
def Obligations.WordsOfTheSpecDecode : Prop :=
  decode 0x010000000000000000#72 = .ok .rdstat ∧
  decode 0x110000005700000083#72 = .ok (.gfmul 0x57#8 0x83#8) ∧
  decode 0x20000000CF00000000#72 = .ok (.sbox 0xCF#8) ∧
  decode 0x30DB13534502010103#72 = .ok (.wmul 0xDB135345#32 0x02010103#32) ∧
  decode 0x480405060700000001#72 = .ok (.lds 1 0x04050607#32) ∧
  decode 0x46000000000000000A#72 = .ok (.addroundkey 10) ∧
  decode 0x542B7E151600000000#72 = .ok (.ldkey 0 0x2B7E1516#32) ∧
  decode 0x600000000000000000#72 = .ok .encrypt ∧
  decode 0x000000000000000000#72 = .error (.unknownOpcode 0x00#8) ∧
  decode 0x110000015700000083#72 = .error (.mustBeZero 0x11#8)

/-- Every opcode but the 25 answers `E_ILLEGAL`, `r = 0`, and no state changes; they are 231 of the 256 (30 R40). -/
def Obligations.UnknownOpcodeAnswersIllegal : Prop :=
  (∀ (s : State) (c : CmdWord), opField c ∉ opcodesOfTheSpec → AnswersIllegal s c) ∧
  ((List.range 256).filter fun n => BitVec.ofNat 8 n ∉ opcodesOfTheSpec).length = 231 ∧
  0x00#8 ∉ opcodesOfTheSpec ∧ 0xFF#8 ∉ opcodesOfTheSpec

/-- A legal opcode with a must-be-zero bit set answers `E_ILLEGAL`, with the rule's three examples (30 R41). The
must-be-zero bits are those the mask of the opcode's row covers beside `op`. -/
def Obligations.MustBeZeroBitAnswersIllegal : Prop :=
  (∀ (s : State) (c : CmdWord), ∀ r ∈ opcodeRows, opField c = opField r.pattern → c &&& r.mask ≠ r.pattern →
    AnswersIllegal s c) ∧
  (∀ (s : State) (b : Word), AnswersIllegal s (cmdWord 0x11#8 0x00000157#32 b)) ∧
  (∀ (s : State) (a : Word), AnswersIllegal s (cmdWord 0x48#8 a 0x00000040#32)) ∧
  (∀ (s : State) (a : Word), step (s.present (cmdWord 0x48#8 a 0x00000004#32)) =
    .next { s with rsp := some ⟨.error .index, 0⟩ })

/-- `E_ILLEGAL` is the answer exactly when the word selects no row of the opcode table; WMUL cannot raise it
(60 R137). -/
def Obligations.IllegalExactlyWhenNoRowIsSelected : Prop :=
  (∀ (s : State) (c : CmdWord),
    (∃ t x, step (s.present c) = .next t ∧ t.rsp = some x ∧ x.status = .error .illegal) ↔
      ∀ r ∈ opcodeRows, c &&& r.mask ≠ r.pattern) ∧
  (∀ (s : State) (w v : Word), ¬ AnswersIllegal s (cmdWord 0x30#8 w v))

/-! ### The step -/

/-- A step accepts the oldest input. A word that decodes to `i` is performed as `i`, on the state in which the
word has left the input; with nothing presented the state stays (20 R28, R29, 30 R49, 60 R152). That the host's words
stand in `inputs` and the oldest is taken out is the model's (log entry 1); that the last response also stands while
the unit is idle is the model's (log entry 3): R152 keeps `S`, `K`, `W` and `KV`. -/
def Obligations.StepRunsTheDecodedCommand : Prop :=
  (∀ (s : State) (c : CmdWord) (rest : List Input) (i : Instr), s.inputs = .command c :: rest → decode c = .ok i →
    step s = exec i { s with inputs := rest }) ∧
  (∀ (s : State) (c : CmdWord) (i : Instr), decode c = .ok i → step (s.present c) = exec i s) ∧
  (∀ s : State, s.inputs = [] → step s = .next s)

/-- A run over presented command words is the commands performed one after another, each on the state the one
before left (20 R29). The input stream is the model's (log
entry 1). -/
def Obligations.RunPerformsCommandsInOrder : Prop :=
  ∀ (is : List Instr) (s : State), (∀ i ∈ is, i.wellFormed = true) → s.inputs = [] →
    Host.Core.run Sys2Proof.core is.length (s.feed is) = execAll is s

/-- Every command word gets exactly one response with one of the five statuses, and each error comes from the
commands of the table of 60 R135 alone. -/
def Obligations.EveryWordIsAnsweredWithOneStatus : Prop :=
  ∀ (s : State) (c : CmdWord), ∃ t x, step (s.present c) = .next t ∧ t.rsp = some x ∧ t.inputs = s.inputs ∧
    (x.status = .error .illegal → ∀ i, decode c ≠ .ok i) ∧
    (x.status = .error .index → ∃ i, decode c = .ok i ∧ i.mnemonic ∈ ["LDS", "RDS", "LDKEY", "RDW", "ADDROUNDKEY"]) ∧
    (x.status = .error .domain → ∃ i, decode c = .ok i ∧ i.mnemonic ∈ ["GFINV", "RCON"]) ∧
    (x.status = .error .noKey →
      ∃ i, decode c = .ok i ∧ i.mnemonic ∈ ["ADDROUNDKEY", "RDW", "ENCRYPT", "DECRYPT"])

/-- The response word: the status in bits 35:32 with codes 0 to 4, `r` in bits 31:0 (30 R36). -/
def Obligations.ResponseWordLayout : Prop :=
  ∀ x : Response,
    x.rspWord.extractLsb' 32 4 = (match x.status with
      | .ok => 0#4 | .error .illegal => 1#4 | .error .index => 2#4 | .error .domain => 3#4 | .error .noKey => 4#4) ∧
    x.rspWord.extractLsb' 0 32 = x.r

/-! ### Statuses -/

/-- The status of a command is that of the first check that fails, in the order E_INDEX, E_DOMAIN, E_NOKEY; a
command whose checks all pass answers OK (30 R48, 60 R141). E_ILLEGAL comes before all, at the word. -/
def Obligations.StatusFollowsTheOrderOfChecks : Prop :=
  (∀ (i : Instr) (s : State), ∃ t x, exec i s = .next t ∧ t.rsp = some x ∧ x.status = i.statusByChecks s.KV) ∧
  (∀ (s : State) (c : CmdWord), (∀ i, decode c ≠ .ok i) → AnswersIllegal s c) ∧
  (∀ (s : State) (idx : Nat), s.KV = false → 10 < idx →
    exec (.addroundkey idx) s = .next { s with rsp := some ⟨.error .index, 0⟩ }) ∧
  (∀ (s : State) (idx : Nat), s.KV = false → 43 < idx →
    exec (.rdw idx) s = .next { s with rsp := some ⟨.error .index, 0⟩ }) ∧
  (∀ (s : State) (a : Word), a ≠ 0 → AnswersIllegal s (cmdWord 0x56#8 a 50#32))

/-- A word answered with an error changes no architectural state and leaves `r = 0`; the next word is answered as
if the failing one had not come (60 R142). -/
def Obligations.ErrorChangesNothing : Prop :=
  ∀ (s t : State) (c : CmdWord) (e : Err) (r : Word), step (s.present c) = .next t → t.rsp = some ⟨.error e, r⟩ →
    r = 0 ∧ t = { s with rsp := some ⟨.error e, 0⟩ } ∧ t.SameArch s ∧ t.status = s.status ∧
    ∀ c', step (t.present c') = step (s.present c')

/-- An index outside the command's range answers `E_INDEX` and changes nothing (20 R27, 60 R138). -/
def Obligations.IndexOutOfRangeAnswersIndexError : Prop :=
  ∀ (s : State) (idx : Nat) (w : Word),
    (3 < idx → exec (.lds idx w) s = .next { s with rsp := some ⟨.error .index, 0⟩ }) ∧
    (3 < idx → exec (.rds idx) s = .next { s with rsp := some ⟨.error .index, 0⟩ }) ∧
    (3 < idx → exec (.ldkey idx w) s = .next { s with rsp := some ⟨.error .index, 0⟩ }) ∧
    (43 < idx → exec (.rdw idx) s = .next { s with rsp := some ⟨.error .index, 0⟩ }) ∧
    (10 < idx → exec (.addroundkey idx) s = .next { s with rsp := some ⟨.error .index, 0⟩ }) ∧
    (∀ (i : Instr) (t : State) (r : Word), exec i s = .next t → t.rsp = some ⟨.error .index, r⟩ →
      i.indexInRange = false)

/-- GFINV and RCON answer `E_DOMAIN` at 0, and no other command has a domain restriction (60 R139). -/
def Obligations.DomainErrorExactlyAtZero : Prop :=
  ∀ s : State,
    exec (.gfinv 0) s = .next { s with rsp := some ⟨.error .domain, 0⟩ } ∧
    exec (.rcon 0) s = .next { s with rsp := some ⟨.error .domain, 0⟩ } ∧
    ∀ (i : Instr) (t : State) (r : Word), exec i s = .next t → t.rsp = some ⟨.error .domain, r⟩ →
      i = .gfinv 0 ∨ i = .rcon 0

/-- A command without a result answers `r = 0` (60 R136, 30 R36). -/
def Obligations.CommandsWithoutResultAnswerZero : Prop :=
  ∀ (i : Instr) (s t : State) (x : Response), i.hasNoResult = true → exec i s = .next t → t.rsp = some x → x.r = 0

/-! ### The state -/

/-- `KV` is set by KEYEXPAND and cleared by LDKEY and reset, by nothing else; while it is 0 the four users of the
schedule answer `E_NOKEY`; RDSTAT returns it (10 R13, 60 R140). -/
def Obligations.KeyValidFlagRules : Prop :=
  (∀ (s t : State), exec .keyexpand s = .next t → t.KV = true) ∧
  (∀ (s t : State) (idx : Nat) (w : Word), idx ≤ 3 → exec (.ldkey idx w) s = .next t → t.KV = false) ∧
  (∀ (s t : State) (i : Instr), exec i s = .next t → i ≠ .keyexpand → (∀ idx w, idx ≤ 3 → i ≠ .ldkey idx w) →
    t.KV = s.KV) ∧
  (∀ (s t : State), s.inputs.head? = some .reset → step s = .next t → t.KV = false) ∧
  (∀ s : State, s.KV = false →
    (∀ idx, idx ≤ 10 → exec (.addroundkey idx) s = .next { s with rsp := some ⟨.error .noKey, 0⟩ }) ∧
    (∀ idx, idx ≤ 43 → exec (.rdw idx) s = .next { s with rsp := some ⟨.error .noKey, 0⟩ }) ∧
    exec .encrypt s = .next { s with rsp := some ⟨.error .noKey, 0⟩ } ∧
    exec .decrypt s = .next { s with rsp := some ⟨.error .noKey, 0⟩ }) ∧
  (∀ s t : State, exec .rdstat s = .next t → ∃ v, t.rsp = some ⟨.ok, v⟩ ∧ v.getLsbD 0 = s.KV)

/-- RDSTAT answers the STATUS register: bit 0 is `KV`, the other bits 0; 0 after reset, 1 after KEYEXPAND, 0 again
after an LDKEY; an error in another command leaves no mark in it (46 R130, 10 R15). -/
def Obligations.RdstatReturnsStatus : Prop :=
  EncodedN 0x01#8 .rdstat ∧
  (∀ s : State, exec .rdstat s = .next { s with rsp := some ⟨.ok, if s.KV = true then 1#32 else 0#32⟩ }) ∧
  exec .rdstat State.reset = .next { State.reset with rsp := some ⟨.ok, 0#32⟩ } ∧
  (∀ s t : State, exec .keyexpand s = .next t → exec .rdstat t = .next { t with rsp := some ⟨.ok, 1#32⟩ }) ∧
  (∀ (s t : State) (idx : Nat) (w : Word), idx ≤ 3 → exec (.ldkey idx w) s = .next t →
    exec .rdstat t = .next { t with rsp := some ⟨.ok, 0#32⟩ }) ∧
  (∀ (i : Instr) (s t : State) (e : Err) (r : Word), exec i s = .next t → t.rsp = some ⟨.error e, r⟩ →
    exec .rdstat t = exec .rdstat s)

/-- Each register array is written by its own commands alone, and no command touches the presented inputs
(10 R10, R11, R12, R13). -/
def Obligations.CommandsWriteOnlyTheirState : Prop :=
  ∀ (i : Instr) (s t : State), exec i s = .next t →
    (i.writesS = false → t.S = s.S) ∧
    ((∀ idx w, i ≠ .ldkey idx w) → t.K = s.K) ∧
    (i ≠ .keyexpand → t.W = s.W) ∧
    (i ≠ .keyexpand → (∀ idx w, i ≠ .ldkey idx w) → t.KV = s.KV) ∧
    t.SamePorts s

/-- What a command does not read cannot change what it does: `K` is read by KEYEXPAND only (LDKEY writes it), `S`
by RDS and its own writers, `W` by RDW, ADDROUNDKEY, ENCRYPT and DECRYPT, and not even by those while `KV`
is 0 (10 R10, R11, R12, R19). -/
def Obligations.CommandsReadOnlyTheirState : Prop :=
  ∀ (i : Instr) (s t : State), exec i s = .next t →
    (∀ k, i ≠ .keyexpand → (∀ idx w, i ≠ .ldkey idx w) → exec i { s with K := k } = .next { t with K := k }) ∧
    (∀ T, i.writesS = false → (∀ idx, i ≠ .rds idx) → exec i { s with S := T } = .next { t with S := T }) ∧
    (∀ w, i.needsKey = false ∨ s.KV = false → i ≠ .keyexpand → exec i { s with W := w } = .next { t with W := w })

/-- The pure commands answer as a function of the command alone and change no state; the reads change no state and
answer the same when repeated, at once or after any commands that write nothing the read looks at (20 R32).
The spec marks R32 as derived from the rules of the commands named. -/
def Obligations.PureCommandsAndReadsChangeNothing : Prop :=
  (∀ i : Instr, i.isPure = true → ∃ x, ∀ s : State, exec i s = .next { s with rsp := some x }) ∧
  (∀ (i : Instr) (s : State) (is : List Instr), i.isRead = true →
    ∃ t, exec i s = .next t ∧ t = { s with rsp := t.rsp } ∧ exec i t = .next t ∧
      (QuietFor i is t → ∃ u, execAll is t = .next u ∧ exec i u = .next { u with rsp := t.rsp }))

/-- A reset, between commands or in the middle of one, clears `KV`, so that STATUS reads 0, gives no response,
and leaves the unit ready for the next input; after power-on the same holds; with nothing presented nothing
changes (70 R155, 60 R143). Which command was cut short does not matter to `KV`, STATUS, the response and the inputs;
of `S`, `K` and `W` nothing is said, for their contents are unspecified (10 R19).
That no response is `rsp = none`, and that a reset is an input, are the model's (log entries 1, 3, 10). -/
def Obligations.ResetEvent : Prop :=
  (∀ (s : State) (x : Input) (rest : List Input), s.inputs = x :: rest → (∀ c, x ≠ .command c) →
    ∃ t, step s = .next t ∧ t.KV = false ∧ t.status = 0 ∧ t.rsp = none ∧ t.inputs = rest) ∧
  (∀ (s t t' : State) (c c' : CmdWord) (rest : List Input), step { s with inputs := .resetDuring c :: rest } = .next t →
    step { s with inputs := .resetDuring c' :: rest } = .next t' →
    t.KV = t'.KV ∧ t.status = t'.status ∧ t.rsp = t'.rsp ∧ t.inputs = t'.inputs) ∧
  State.reset.KV = false ∧ State.reset.status = 0 ∧ State.reset.rsp = none ∧
  (∀ s : State, s.inputs = [] → step s = .next s)

/-- Every step keeps `KV = 1 implies W = expand_key(K)` (10 R17), in every state.
The spec marks R17 as derived. -/
def Obligations.StepKeepsScheduleValid : Prop :=
  ∀ s t : State, s.ScheduleValid → step s = .next t → t.ScheduleValid

/-- The state after reset has the invariant of the schedule (10 R17, R19). -/
def Obligations.ResetHasScheduleValid : Prop := State.reset.ScheduleValid

/-- In every state reachable from reset, whatever the host presents, `KV = 1` implies `W = expand_key(K)` and so
`W[j] = K[j]` for `j` in 0..3 (10 R17).
The spec marks R17 as derived. -/
def Obligations.ReachableScheduleIsTheKeysExpansion : Prop :=
  ∀ s : State, Reachable s → s.KV = true → s.W = expandKey s.K ∧ ∀ j : Fin 4, s.W[j.val] = s.K[j]

/-- Until the next KEYEXPAND after an LDKEY the users of the schedule answer `E_NOKEY`, whatever commands come
between (70 R158). -/
def Obligations.KeyChangeInvalidatesUntilExpanded : Prop :=
  ∀ (s t : State) (idx : Nat) (w : Word) (is : List Instr), idx ≤ 3 → .keyexpand ∉ is →
    execAll (.ldkey idx w :: is) s = .next t →
    (∀ k, k ≤ 10 → exec (.addroundkey k) t = .next { t with rsp := some ⟨.error .noKey, 0⟩ }) ∧
    (∀ j, j ≤ 43 → exec (.rdw j) t = .next { t with rsp := some ⟨.error .noKey, 0⟩ }) ∧
    exec .encrypt t = .next { t with rsp := some ⟨.error .noKey, 0⟩ } ∧
    exec .decrypt t = .next { t with rsp := some ⟨.error .noKey, 0⟩ }

/-! ### Field Arithmetic -/

/-- `gf_mul` is the carry-less product reduced modulo 0x11B, clearing bits 14 to 8 from the top: the two
algorithms of 40 R52 agree on every pair. -/
def Obligations.ProductIsTheReducedCarrylessProduct : Prop :=
  ∀ a b : Byte, gfMul a b = (reducePoly (carryless a b)).setWidth 8

/-- The laws of the field (40 R59).
The spec marks R59 as derived. -/
def Obligations.FieldLaws : Prop :=
  (∀ a b : Byte, gfAdd a b = gfAdd b a ∧ gfMul a b = gfMul b a) ∧
  (∀ a b c : Byte, gfAdd (gfAdd a b) c = gfAdd a (gfAdd b c) ∧ gfMul (gfMul a b) c = gfMul a (gfMul b c)) ∧
  (∀ a b c : Byte, gfMul a (gfAdd b c) = gfAdd (gfMul a b) (gfMul a c)) ∧
  (∀ a : Byte, gfAdd a 0 = a ∧ gfAdd a a = 0 ∧ gfMul a 1 = a ∧ gfMul a 0 = 0) ∧
  (∀ a b : Byte, gfMul a b = 0 → a = 0 ∨ b = 0) ∧
  (∀ a : Byte, a ≠ 0 → ∃ b, ∀ b', gfMul a b' = 1 ↔ b' = b) ∧
  (gfPow 2 51 = 1 ∧ ∀ n, 0 < n → n < 51 → gfPow 2 n ≠ 1) ∧
  (gfPow 3 255 = 1 ∧ ∀ n, 0 < n → n < 255 → gfPow 3 n ≠ 1)

/-- `gf_pow` and its consequences: `a^0 = 1` also at 0, `a^(n+1) = a^n • a`, squaring gives the same value, and for
`a != 0` the value depends on `n mod 255` only (40 R53).
The spec marks the consequences at the end of R53 as derived. -/
def Obligations.PowerRules : Prop :=
  (∀ a : Byte, gfPow a 0 = 1) ∧
  (∀ (a : Byte) (n : Nat), gfPow a (n + 1) = gfMul (gfPow a n) a) ∧
  (∀ (a : Byte) (m n : Nat), gfPow a (m + n) = gfMul (gfPow a m) (gfPow a n)) ∧
  (∀ n : Nat, 1 ≤ n → gfPow 0 n = 0) ∧
  (∀ a : Byte, gfPow a 1 = a) ∧
  (∀ a : Byte, a ≠ 0 → gfPow a 255 = 1) ∧
  (∀ (a : Byte) (n : Nat), a ≠ 0 → 1 ≤ n → gfPow a n = gfPow a (n % 255))

/-- `gf_inv(a)` is the unique `b` with `a • b = 1` and is `a^254`; it has no value at 0, where no `b` exists
(40 R54).
The spec marks the power 254 in R54 as derived. -/
def Obligations.InverseIsTheUniqueSolution : Prop :=
  (∀ a : Byte, a ≠ 0 → ∃ b, gfInv a = some b ∧ (∀ b', gfMul a b' = 1 ↔ b' = b) ∧ b = gfPow a 254) ∧
  gfInv 0 = none ∧ ∀ b : Byte, gfMul 0 b ≠ 1

/-- GFADD x, y (40 R55). -/
def Obligations.GfaddAnswersTheExclusiveOr : Prop :=
  EncodedB2 0x10#8 .gfadd ∧
  (∀ (s : State) (x y : Byte), exec (.gfadd x y) s = .next { s with rsp := some ⟨.ok, (x ^^^ y).setWidth 32⟩ }) ∧
  (∀ (s : State) (x : Byte), exec (.gfadd x x) s = .next { s with rsp := some ⟨.ok, 0⟩ } ∧
    exec (.gfadd x 0) s = .next { s with rsp := some ⟨.ok, x.setWidth 32⟩ }) ∧
  (∀ s : State, exec (.gfadd 0x57 0x83) s = .next { s with rsp := some ⟨.ok, 0x000000D4#32⟩ })

/-- GFMUL x, y: the product of 40 R52, in the spec's own steps (40 R56). -/
def Obligations.GfmulAnswersTheProduct : Prop :=
  EncodedB2 0x11#8 .gfmul ∧
  (∀ (s : State) (x y : Byte), exec (.gfmul x y) s =
    .next { s with rsp := some ⟨.ok, ((reducePoly (carryless x y)).setWidth 8).setWidth 32⟩ }) ∧
  (∀ (s : State) (x : Byte),
    exec (.gfmul x 0) s = .next { s with rsp := some ⟨.ok, 0⟩ } ∧
    exec (.gfmul 0 x) s = .next { s with rsp := some ⟨.ok, 0⟩ } ∧
    exec (.gfmul x 1) s = .next { s with rsp := some ⟨.ok, x.setWidth 32⟩ }) ∧
  (∀ s : State,
    exec (.gfmul 0x02 0x80) s = .next { s with rsp := some ⟨.ok, 0x1B#32⟩ } ∧
    exec (.gfmul 0xFF 0xFF) s = .next { s with rsp := some ⟨.ok, 0x13#32⟩ } ∧
    exec (.gfmul 0x80 0x80) s = .next { s with rsp := some ⟨.ok, 0x9A#32⟩ } ∧
    exec (.gfmul 0x57 0x83) s = .next { s with rsp := some ⟨.ok, 0xC1#32⟩ })

/-- GFPOW x, y: the exponent is the unsigned byte `y` (40 R57). -/
def Obligations.GfpowAnswersThePower : Prop :=
  EncodedB2 0x12#8 .gfpow ∧
  (∀ (s : State) (x y : Byte),
    exec (.gfpow x y) s = .next { s with rsp := some ⟨.ok, (gfPow x y.toNat).setWidth 32⟩ }) ∧
  (∀ (s : State) (x y : Byte),
    exec (.gfpow x 0) s = .next { s with rsp := some ⟨.ok, 1⟩ } ∧
    exec (.gfpow x 1) s = .next { s with rsp := some ⟨.ok, x.setWidth 32⟩ } ∧
    (y ≠ 0 → exec (.gfpow 0 y) s = .next { s with rsp := some ⟨.ok, 0⟩ }) ∧
    (x ≠ 0 → exec (.gfpow x 255) s = .next { s with rsp := some ⟨.ok, 1⟩ }) ∧
    (x ≠ 0 → exec (.gfpow x 254) s = exec (.gfinv x) s)) ∧
  (∀ s : State, exec (.gfpow 0x02 0x08) s = .next { s with rsp := some ⟨.ok, 0x1B#32⟩ } ∧
    exec (.gfpow 0x00 0x00) s = .next { s with rsp := some ⟨.ok, 1⟩ })

/-- GFINV x: the unique inverse for `x != 0`, `E_DOMAIN` at 0 (40 R58). -/
def Obligations.GfinvAnswersTheInverse : Prop :=
  EncodedB1 0x13#8 .gfinv ∧
  (∀ s : State, exec (.gfinv 0) s = .next { s with rsp := some ⟨.error .domain, 0⟩ }) ∧
  (∀ (s : State) (x : Byte), x ≠ 0 → ∃ b, (∀ b', gfMul x b' = 1 ↔ b' = b) ∧
    exec (.gfinv x) s = .next { s with rsp := some ⟨.ok, b.setWidth 32⟩ } ∧
    exec (.gfinv b) s = .next { s with rsp := some ⟨.ok, x.setWidth 32⟩ }) ∧
  (∀ s : State, exec (.gfinv 1) s = .next { s with rsp := some ⟨.ok, 1⟩ } ∧
    exec (.gfinv 0x53) s = .next { s with rsp := some ⟨.ok, 0xCA#32⟩ })

/-! ### S-box -/

/-- The two affine maps, bit by bit and by rotations, and that they undo each other (41 R60, R62).
The spec marks the rotations and the two round trips of R60 and R62 as derived. -/
def Obligations.AffineMaps : Prop :=
  (∀ m : Byte, (∀ i, i < 8 → (affine m).getLsbD i =
      (m.getLsbD i ^^ m.getLsbD ((i + 4) % 8) ^^ m.getLsbD ((i + 5) % 8) ^^ m.getLsbD ((i + 6) % 8) ^^
        m.getLsbD ((i + 7) % 8) ^^ (0x63#8).getLsbD i)) ∧
    affine m = m ^^^ m.rotateLeft 1 ^^^ m.rotateLeft 2 ^^^ m.rotateLeft 3 ^^^ m.rotateLeft 4 ^^^ 0x63#8) ∧
  (∀ b : Byte, (∀ i, i < 8 → (invAffine b).getLsbD i =
      ((b ^^^ 0x63#8).getLsbD ((i + 2) % 8) ^^ (b ^^^ 0x63#8).getLsbD ((i + 5) % 8) ^^
        (b ^^^ 0x63#8).getLsbD ((i + 7) % 8))) ∧
    invAffine b = b.rotateLeft 1 ^^^ b.rotateLeft 3 ^^^ b.rotateLeft 6 ^^^ 0x05#8) ∧
  (∀ m : Byte, invAffine (affine m) = m ∧ affine (invAffine m) = m) ∧
  affine 0x00 = 0x63 ∧ affine 0x01 = 0x7C ∧ (∀ b : Byte, invAffine b = 0 ↔ b = 0x63)

/-- The two substitutions are inverse bijections of the bytes and neither is its own inverse; `sbox` has no fixed
point and no byte with `sbox(b) = b ^ 0xFF` (41 R66).
The spec marks the last sentence of R66 as derived. -/
def Obligations.SubstitutionsAreInverse : Prop :=
  (∀ b : Byte, invSbox (sbox b) = b ∧ sbox (invSbox b) = b) ∧
  sbox (sbox 0) = 0xFB ∧ (∃ b, invSbox (invSbox b) ≠ b) ∧
  (∀ b : Byte, sbox b ≠ b ∧ sbox b ≠ b ^^^ 0xFF)

/-- SBOX x: the inverse of `x` (0 at 0), then the affine map of 41 R60 (41 R61, R64). -/
def Obligations.SboxAnswersTheSubstitution : Prop :=
  EncodedB1 0x20#8 .sbox ∧
  (∀ (s : State) (x : Byte), ∃ m o : Byte, (x = 0 → m = 0) ∧ (x ≠ 0 → gfMul x m = 1) ∧
    (∀ i, i < 8 → o.getLsbD i =
      (m.getLsbD i ^^ m.getLsbD ((i + 4) % 8) ^^ m.getLsbD ((i + 5) % 8) ^^ m.getLsbD ((i + 6) % 8) ^^
        m.getLsbD ((i + 7) % 8) ^^ (0x63#8).getLsbD i)) ∧
    exec (.sbox x) s = .next { s with rsp := some ⟨.ok, o.setWidth 32⟩ }) ∧
  (∀ s : State, exec (.sbox 0x00) s = .next { s with rsp := some ⟨.ok, 0x63#32⟩ } ∧
    exec (.sbox 0x01) s = .next { s with rsp := some ⟨.ok, 0x7C#32⟩ } ∧
    exec (.sbox 0x53) s = .next { s with rsp := some ⟨.ok, 0xED#32⟩ } ∧
    ∀ x : Byte, exec (.sbox x) s = .next { s with rsp := some ⟨.ok, 0⟩ } ↔ x = 0x52)

/-- ISBOX x: the inverse affine map of 41 R62, then the inverse (0 at 0) (41 R63, R65). -/
def Obligations.IsboxAnswersTheInverseSubstitution : Prop :=
  EncodedB1 0x21#8 .isbox ∧
  (∀ (s : State) (x : Byte), ∃ m o : Byte,
    (∀ i, i < 8 → m.getLsbD i =
      ((x ^^^ 0x63#8).getLsbD ((i + 2) % 8) ^^ (x ^^^ 0x63#8).getLsbD ((i + 5) % 8) ^^
        (x ^^^ 0x63#8).getLsbD ((i + 7) % 8))) ∧
    (m = 0 ↔ x = 0x63) ∧ (m = 0 → o = 0) ∧ (m ≠ 0 → gfMul m o = 1) ∧
    exec (.isbox x) s = .next { s with rsp := some ⟨.ok, o.setWidth 32⟩ }) ∧
  (∀ s : State, exec (.isbox 0x63) s = .next { s with rsp := some ⟨.ok, 0⟩ } ∧
    exec (.isbox 0x00) s = .next { s with rsp := some ⟨.ok, 0x52#32⟩ } ∧
    exec (.isbox 0xED) s = .next { s with rsp := some ⟨.ok, 0x53#32⟩ })

/-! ### Word Arithmetic -/

/-- `word_mul` is the product of the polynomials modulo x^4+1, under either order: the coefficient of x^k is the
sum of `p_i • q_j` over `i + j = k (mod 4)`, and WMUL under an order answers it (42 R70, R71, 00 R6); `MIX_FWD · MIX_INV = 1` (42 R72).
The spec marks the product of the two constants in R72 as derived. -/
def Obligations.WordProductIsThePolynomialProduct : Prop :=
  (∀ (ord : Config.WordOrder) (w v : Word) (k : Fin 4), coeff ord (wordMul ord w v) k =
    gfMul (coeff ord v k) (coeff ord w 0) ^^^ gfMul (coeff ord v (k - 1)) (coeff ord w 1) ^^^
      gfMul (coeff ord v (k - 2)) (coeff ord w 2) ^^^ gfMul (coeff ord v (k - 3)) (coeff ord w 3)) ∧
  (∀ (ord : Config.WordOrder) (s : State) (w v : Word),
    execUnder ord (.wmul w v) s = .next { s with rsp := some ⟨.ok, wordMul ord w v⟩ }) ∧
  fwdConst .asc = 0x02010103#32 ∧ invConst .asc = 0x0E090D0B#32 ∧
  fwdConst .desc = 0x03010102#32 ∧ invConst .desc = 0x0B0D090E#32 ∧
  wordMul .asc (fwdConst .asc) (invConst .asc) = 0x01000000#32 ∧
  wordMul .desc (fwdConst .desc) (invConst .desc) = 0x00000001#32

/-- The laws of the Word product, under either order (42 R75).
The spec marks R75 as derived. -/
def Obligations.WordProductLaws : Prop :=
  (∀ (ord : Config.WordOrder) (w v u : Word),
    wordMul ord w v = wordMul ord v w ∧
    wordMul ord (wordMul ord w v) u = wordMul ord w (wordMul ord v u) ∧
    wordMul ord w (wordXor v u) = wordXor (wordMul ord w v) (wordMul ord w u) ∧
    wordMul ord (wordMul ord w (fwdConst ord)) (invConst ord) = w) ∧
  (∀ w : Word, wordMul .asc w 0x01000000#32 = w ∧
    wordMul .asc w 0x00010000#32 = word (byte w 3) (byte w 0) (byte w 1) (byte w 2) ∧
    ∃ b : Byte, wordMul .asc w 0x01010101#32 = word b b b b)

/-- WMUL w, v, written out for the order this hardware takes (42 R71, R74). -/
def Obligations.WmulAnswersTheWordProduct : Prop :=
  EncodedW2 0x30#8 .wmul ∧
  (∀ (s : State) (w v : Word), exec (.wmul w v) s = .next { s with rsp := some ⟨.ok, word
    (gfMul (byte v 0) (byte w 0) ^^^ gfMul (byte v 3) (byte w 1) ^^^ gfMul (byte v 2) (byte w 2) ^^^
      gfMul (byte v 1) (byte w 3))
    (gfMul (byte v 1) (byte w 0) ^^^ gfMul (byte v 0) (byte w 1) ^^^ gfMul (byte v 3) (byte w 2) ^^^
      gfMul (byte v 2) (byte w 3))
    (gfMul (byte v 2) (byte w 0) ^^^ gfMul (byte v 1) (byte w 1) ^^^ gfMul (byte v 0) (byte w 2) ^^^
      gfMul (byte v 3) (byte w 3))
    (gfMul (byte v 3) (byte w 0) ^^^ gfMul (byte v 2) (byte w 1) ^^^ gfMul (byte v 1) (byte w 2) ^^^
      gfMul (byte v 0) (byte w 3))⟩ }) ∧
  (∀ (s : State) (w v : Word),
    exec (.wmul w 0x01000000#32) s = .next { s with rsp := some ⟨.ok, w⟩ } ∧
    exec (.wmul w 0) s = .next { s with rsp := some ⟨.ok, 0⟩ } ∧
    exec (.wmul 0 v) s = .next { s with rsp := some ⟨.ok, 0⟩ } ∧
    exec (.wmul w v) s = exec (.wmul v w) s) ∧
  (∀ s : State,
    exec (.wmul 0xDB135345#32 0x02010103#32) s = .next { s with rsp := some ⟨.ok, 0x8E4DA1BC#32⟩ } ∧
    exec (.wmul 0x8E4DA1BC#32 0x0E090D0B#32) s = .next { s with rsp := some ⟨.ok, 0xDB135345#32⟩ })

/-! ### State Transform Engine -/

/-- LDS idx, w: the four bytes of column `idx` become those of `w`, the other twelve keep their values (43 R87). -/
def Obligations.LdsLoadsOneColumn : Prop :=
  EncodedWI 0x48#8 .lds ∧
  (∀ (s : State) (idx : Nat) (w : Word), idx ≤ 3 → ∃ t, exec (.lds idx w) s = .next t ∧
    t = { s with S := t.S, rsp := okZero } ∧
    ∀ c r : Fin 4, t.S[c][r] = if c.val = idx then byte w r else s.S[c][r]) ∧
  (∀ (s : State) (idx : Nat) (w : Word), 3 < idx →
    exec (.lds idx w) s = .next { s with rsp := some ⟨.error .index, 0⟩ })

/-- RDS idx answers the Word of column `idx` (43 R88). -/
def Obligations.RdsReadsOneColumn : Prop :=
  EncodedI 0x49#8 .rds ∧
  (∀ (s : State) (c : Fin 4), exec (.rds c.val) s =
    .next { s with rsp := some ⟨.ok, word s.S[c][0] s.S[c][1] s.S[c][2] s.S[c][3]⟩ }) ∧
  (∀ s : State, s.S = hexBlock 0x000102030405060708090A0B0C0D0E0F →
    exec (.rds 2) s = .next { s with rsp := some ⟨.ok, 0x08090A0B#32⟩ }) ∧
  (∀ (s : State) (idx : Nat), 3 < idx → exec (.rds idx) s = .next { s with rsp := some ⟨.error .index, 0⟩ })

/-- SUBBYTES and INVSUBBYTES: the substitution on every byte independently (43 R80, R81, R89, R90). -/
def Obligations.SubBytesActsByteByByte : Prop :=
  EncodedN 0x40#8 .subbytes ∧ EncodedN 0x41#8 .invsubbytes ∧
  (∀ s : State, ∃ t, exec .subbytes s = .next t ∧ t = { s with S := t.S, rsp := okZero } ∧
    ∀ c r : Fin 4, t.S[c][r] = sbox s.S[c][r] ∧ t.S[c][r] ≠ s.S[c][r] ∧ (s.S[c][r] = 0x00 → t.S[c][r] = 0x63)) ∧
  (∀ s : State, ∃ t, exec .invsubbytes s = .next t ∧ t = { s with S := t.S, rsp := okZero } ∧
    ∀ c r : Fin 4, t.S[c][r] = invSbox s.S[c][r] ∧ (s.S[c][r] = 0x63 → t.S[c][r] = 0x00)) ∧
  (∀ s t : State, s.S = hexBlock 0x000102030405060708090A0B0C0D0E0F →
    (exec .subbytes s = .next t → t.S = hexBlock 0x637C777BF26B6FC53001672BFED7AB76) ∧
    (exec .invsubbytes s = .next t → t.S = hexBlock 0x52096AD53036A538BF40A39E81F3D7FB))

/-- SHIFTROWS and INVSHIFTROWS: the new value at `(c, r)` is the old one at `((c + r) mod 4, r)`, and at
`((c + 4 - r) mod 4, r)` (43 R82, R83, R91, R92, R97). -/
def Obligations.ShiftRowsRotatesTheRows : Prop :=
  EncodedN 0x42#8 .shiftrows ∧ EncodedN 0x43#8 .invshiftrows ∧
  (∀ s : State, ∃ t, exec .shiftrows s = .next t ∧ t = { s with S := t.S, rsp := okZero } ∧
    (∀ c r c' : Fin 4, c'.val = (c.val + r.val) % 4 → t.S[c][r] = s.S[c'][r]) ∧
    ((∀ c c' : Fin 4, s.S[c] = s.S[c']) → t.S = s.S) ∧ ∀ c : Fin 4, t.S[c][0] = s.S[c][0]) ∧
  (∀ s : State, ∃ t, exec .invshiftrows s = .next t ∧ t = { s with S := t.S, rsp := okZero } ∧
    ∀ c r c' : Fin 4, c'.val = (c.val + 4 - r.val) % 4 → t.S[c][r] = s.S[c'][r]) ∧
  (∀ s t : State, s.S = hexBlock 0x000102030405060708090A0B0C0D0E0F →
    (exec .shiftrows s = .next t → t.S = hexBlock 0x00050A0F04090E03080D02070C01060B) ∧
    (exec .invshiftrows s = .next t → t.S = hexBlock 0x000D0A0704010E0B0805020F0C090603))

/-- MIXCOLUMNS and INVMIXCOLUMNS: each column by the matrix of 43 R84 and R85, no rotation (43 R84, R85, R93,
R94); under `DESC` the transposed matrix (43 R84, R85, 00 R6).
The spec marks the matrix of R84 as derived from R71. -/
def Obligations.MixColumnsMultipliesEachColumn : Prop :=
  EncodedN 0x44#8 .mixcolumns ∧ EncodedN 0x45#8 .invmixcolumns ∧
  (∀ s : State, ∃ t, exec .mixcolumns s = .next t ∧ t = { s with S := t.S, rsp := okZero } ∧ ∀ c : Fin 4,
    t.S[c][0] = gfMul 0x02 s.S[c][0] ^^^ gfMul 0x03 s.S[c][1] ^^^ s.S[c][2] ^^^ s.S[c][3] ∧
    t.S[c][1] = s.S[c][0] ^^^ gfMul 0x02 s.S[c][1] ^^^ gfMul 0x03 s.S[c][2] ^^^ s.S[c][3] ∧
    t.S[c][2] = s.S[c][0] ^^^ s.S[c][1] ^^^ gfMul 0x02 s.S[c][2] ^^^ gfMul 0x03 s.S[c][3] ∧
    t.S[c][3] = gfMul 0x03 s.S[c][0] ^^^ s.S[c][1] ^^^ s.S[c][2] ^^^ gfMul 0x02 s.S[c][3] ∧
    ∀ b : Byte, s.S[c] = #v[b, b, b, b] → t.S[c] = s.S[c]) ∧
  (∀ s : State, ∃ t, exec .invmixcolumns s = .next t ∧ t = { s with S := t.S, rsp := okZero } ∧ ∀ c : Fin 4,
    t.S[c][0] = gfMul 0x0E s.S[c][0] ^^^ gfMul 0x0B s.S[c][1] ^^^ gfMul 0x0D s.S[c][2] ^^^ gfMul 0x09 s.S[c][3] ∧
    t.S[c][1] = gfMul 0x09 s.S[c][0] ^^^ gfMul 0x0E s.S[c][1] ^^^ gfMul 0x0B s.S[c][2] ^^^ gfMul 0x0D s.S[c][3] ∧
    t.S[c][2] = gfMul 0x0D s.S[c][0] ^^^ gfMul 0x09 s.S[c][1] ^^^ gfMul 0x0E s.S[c][2] ^^^ gfMul 0x0B s.S[c][3] ∧
    t.S[c][3] = gfMul 0x0B s.S[c][0] ^^^ gfMul 0x0D s.S[c][1] ^^^ gfMul 0x09 s.S[c][2] ^^^ gfMul 0x0E s.S[c][3] ∧
    ∀ b : Byte, s.S[c] = #v[b, b, b, b] → t.S[c] = s.S[c]) ∧
  (∀ s t : State, s.S = hexBlock 0x000102030405060708090A0B0C0D0E0F →
    (exec .mixcolumns s = .next t → t.S = hexBlock 0x02070005060304010A0F080D0E0B0C09) ∧
    (exec .invmixcolumns s = .next t → t.S = hexBlock 0x0A0F080D0E0B0C090207000506030401)) ∧
  (∀ s : State, ∃ t, execUnder .desc .mixcolumns s = .next t ∧ t = { s with S := t.S, rsp := okZero } ∧ ∀ c : Fin 4,
    t.S[c][0] = gfMul 0x02 s.S[c][0] ^^^ s.S[c][1] ^^^ s.S[c][2] ^^^ gfMul 0x03 s.S[c][3] ∧
    t.S[c][1] = gfMul 0x03 s.S[c][0] ^^^ gfMul 0x02 s.S[c][1] ^^^ s.S[c][2] ^^^ s.S[c][3] ∧
    t.S[c][2] = s.S[c][0] ^^^ gfMul 0x03 s.S[c][1] ^^^ gfMul 0x02 s.S[c][2] ^^^ s.S[c][3] ∧
    t.S[c][3] = s.S[c][0] ^^^ s.S[c][1] ^^^ gfMul 0x03 s.S[c][2] ^^^ gfMul 0x02 s.S[c][3]) ∧
  (∀ s : State, ∃ t, execUnder .desc .invmixcolumns s = .next t ∧ t = { s with S := t.S, rsp := okZero } ∧
    ∀ c : Fin 4,
    t.S[c][0] = gfMul 0x0E s.S[c][0] ^^^ gfMul 0x09 s.S[c][1] ^^^ gfMul 0x0D s.S[c][2] ^^^ gfMul 0x0B s.S[c][3] ∧
    t.S[c][1] = gfMul 0x0B s.S[c][0] ^^^ gfMul 0x0E s.S[c][1] ^^^ gfMul 0x09 s.S[c][2] ^^^ gfMul 0x0D s.S[c][3] ∧
    t.S[c][2] = gfMul 0x0D s.S[c][0] ^^^ gfMul 0x0B s.S[c][1] ^^^ gfMul 0x0E s.S[c][2] ^^^ gfMul 0x09 s.S[c][3] ∧
    t.S[c][3] = gfMul 0x09 s.S[c][0] ^^^ gfMul 0x0D s.S[c][1] ^^^ gfMul 0x0B s.S[c][2] ^^^ gfMul 0x0E s.S[c][3])

/-- ADDROUNDKEY idx: Word `4·idx + c` of the schedule is added to column `c`; E_INDEX before E_NOKEY; twice
restores `S`; round 0 adds the key itself (43 R86, R95, 44 R111). -/
def Obligations.AddroundkeyAddsTheRoundKey : Prop :=
  EncodedI 0x46#8 .addroundkey ∧
  (∀ (s : State) (k : Fin 11), s.KV = true → ∃ t, exec (.addroundkey k.val) s = .next t ∧
    t = { s with S := t.S, rsp := okZero } ∧
    (∀ c r : Fin 4, t.S[c][r] = s.S[c][r] ^^^ byte (s.W[4 * k.val + c.val]) r) ∧
    exec (.addroundkey k.val) t = .next { s with rsp := okZero } ∧
    (s.ScheduleValid → k = 0 → ∀ c r : Fin 4, t.S[c][r] = s.S[c][r] ^^^ byte s.K[c] r)) ∧
  (∀ s t : State, s.KV = true → s.S = hexBlock 0x000102030405060708090A0B0C0D0E0F →
    s.W = expandKey #v[0x2B7E1516#32, 0x28AED2A6#32, 0xABF71588#32, 0x09CF4F3C#32] →
    exec (.addroundkey 1) s = .next t → t.S = hexBlock 0xA0FBFC148C512AB62BAA33322661780A) ∧
  (∀ (s : State) (idx : Nat),
    (10 < idx → exec (.addroundkey idx) s = .next { s with rsp := some ⟨.error .index, 0⟩ }) ∧
    (idx ≤ 10 → s.KV = false → exec (.addroundkey idx) s = .next { s with rsp := some ⟨.error .noKey, 0⟩ }))

/-- The properties of the transforms, for every State and all Words, under either order (43 R96).
The spec marks the items of R96 as derived. -/
def Obligations.TransformsUndoEachOther : Prop :=
  (∀ T : Block, invSubBytes (subBytes T) = T ∧ subBytes (invSubBytes T) = T ∧
    invShiftRows (shiftRows T) = T ∧ shiftRows (invShiftRows T) = T ∧
    shiftRows (shiftRows (shiftRows (shiftRows T))) = T ∧
    subBytes (shiftRows T) = shiftRows (subBytes T) ∧
    invSubBytes (invShiftRows T) = invShiftRows (invSubBytes T)) ∧
  (∀ (ord : Config.WordOrder) (T : Block),
    invMixColumns ord (mixColumns ord T) = T ∧ mixColumns ord (invMixColumns ord T) = T) ∧
  (∀ (T : Block) (k : Key), addRoundKey (addRoundKey T k) k = T) ∧
  Function.Bijective subBytes ∧ Function.Bijective invSubBytes ∧
  Function.Bijective shiftRows ∧ Function.Bijective invShiftRows ∧
  (∀ ord, Function.Bijective (mixColumns ord) ∧ Function.Bijective (invMixColumns ord)) ∧
  (∀ k, Function.Bijective fun T => addRoundKey T k)

/-! ### Key Schedule -/

/-- ROTWORD and SUBWORD: the bytes rotate left by one; the S-box on each byte (44 R100, R101, R104, R105). -/
def Obligations.RotwordAndSubwordAnswer : Prop :=
  EncodedW1 0x50#8 .rotword ∧ EncodedW1 0x51#8 .subword ∧
  (∀ (s : State) (w : Word), exec (.rotword w) s =
    .next { s with rsp := some ⟨.ok, (w <<< 8) ||| (w >>> 24)⟩ }) ∧
  (∀ (s : State) (b0 b1 b2 b3 : Byte),
    exec (.rotword (word b0 b1 b2 b3)) s = .next { s with rsp := some ⟨.ok, word b1 b2 b3 b0⟩ } ∧
    exec (.subword (word b0 b1 b2 b3)) s =
      .next { s with rsp := some ⟨.ok, word (sbox b0) (sbox b1) (sbox b2) (sbox b3)⟩ }) ∧
  (∀ (s : State) (w : Word), ∃ v, exec (.subword w) s = .next { s with rsp := some ⟨.ok, v⟩ } ∧
    ∀ k : Fin 4, byte v k = sbox (byte w k)) ∧
  (∀ w : Word, rotWord (rotWord (rotWord (rotWord w))) = w) ∧
  (∀ s : State,
    exec (.rotword 0x09CF4F3C#32) s = .next { s with rsp := some ⟨.ok, 0xCF4F3C09#32⟩ } ∧
    exec (.subword 0) s = .next { s with rsp := some ⟨.ok, 0x63636363#32⟩ } ∧
    exec (.subword 0xCF4F3C09#32) s = .next { s with rsp := some ⟨.ok, 0x8A84EB01#32⟩ })

/-- RCON x: the power of 02 in byte 0, `E_DOMAIN` at 0, period 51 (44 R106, R102). -/
def Obligations.RconAnswersTheRoundConstant : Prop :=
  EncodedB1 0x52#8 .rcon ∧
  (∀ (s : State) (x : Byte), x ≠ 0 →
    exec (.rcon x) s = .next { s with rsp := some ⟨.ok, word (gfPow 0x02 (x.toNat - 1)) 0 0 0⟩ }) ∧
  (∀ s : State, exec (.rcon 0) s = .next { s with rsp := some ⟨.error .domain, 0⟩ }) ∧
  (∀ s : State,
    exec (.rcon 1) s = .next { s with rsp := some ⟨.ok, 0x01000000#32⟩ } ∧
    exec (.rcon 9) s = .next { s with rsp := some ⟨.ok, 0x1B000000#32⟩ } ∧
    exec (.rcon 10) s = .next { s with rsp := some ⟨.ok, 0x36000000#32⟩ } ∧
    exec (.rcon 52) s = .next { s with rsp := some ⟨.ok, 0x01000000#32⟩ }) ∧
  (∀ n : Nat, 1 ≤ n → rcon? (n + 51) = rcon? n) ∧ rcon? 0 = none

/-- LDKEY idx, w: the key word is written and `KV` cleared, also when the word already held `w`; the other words of
`K` and all of `W` keep their values (44 R107). -/
def Obligations.LdkeyLoadsOneWordAndClearsKv : Prop :=
  EncodedWI 0x54#8 .ldkey ∧
  (∀ (s : State) (idx : Nat) (w : Word), idx ≤ 3 → ∃ t, exec (.ldkey idx w) s = .next t ∧
    t = { s with K := t.K, KV := false, rsp := okZero } ∧
    ∀ j : Fin 4, t.K[j] = if j.val = idx then w else s.K[j]) ∧
  (∀ (s : State) (idx : Nat) (w : Word), 3 < idx →
    exec (.ldkey idx w) s = .next { s with rsp := some ⟨.error .index, 0⟩ })

/-- KEYEXPAND writes all 44 words by the recurrence of 44 R103 and sets `KV`; repeating it writes the same again
(44 R103, R108). -/
def Obligations.KeyexpandWritesTheSchedule : Prop :=
  EncodedN 0x55#8 .keyexpand ∧
  (∀ s : State, ∃ t, exec .keyexpand s = .next t ∧ t = { s with W := t.W, KV := true, rsp := okZero } ∧
    t.W = expandKey s.K ∧
    (∀ j : Fin 4, t.W[j.val] = s.K[j]) ∧
    (∀ i : Fin 44, 4 ≤ i.val → t.W[i] = t.W[i.val - 4] ^^^
      (if i.val % 4 = 0 then subWord (rotWord t.W[i.val - 1]) ^^^ word (gfPow 0x02 (i.val / 4 - 1)) 0 0 0
        else t.W[i.val - 1])) ∧
    exec .keyexpand t = .next t) ∧
  (expandKey #v[0x2B7E1516#32, 0x28AED2A6#32, 0xABF71588#32, 0x09CF4F3C#32])[4] = 0xA0FAFE17#32 ∧
  (expandKey #v[0x2B7E1516#32, 0x28AED2A6#32, 0xABF71588#32, 0x09CF4F3C#32])[43] = 0xB6630CA6#32

/-- Any round key of a schedule determines the key, and so the whole schedule (44 R110).
The spec marks this sentence of R110 as derived. -/
def Obligations.AnyRoundKeyDeterminesTheKey : Prop :=
  ∀ (k k' : Key) (j : Fin 11), roundKey (expandKey k) j = roundKey (expandKey k') j → k = k'

/-- RDW idx answers the schedule word; E_INDEX before E_NOKEY (44 R109). -/
def Obligations.RdwReadsOneScheduleWord : Prop :=
  EncodedI 0x56#8 .rdw ∧
  (∀ (s : State) (i : Fin 44), s.KV = true → exec (.rdw i.val) s = .next { s with rsp := some ⟨.ok, s.W[i]⟩ }) ∧
  (∀ (s : State) (idx : Nat),
    (43 < idx → exec (.rdw idx) s = .next { s with rsp := some ⟨.error .index, 0⟩ }) ∧
    (idx ≤ 43 → s.KV = false → exec (.rdw idx) s = .next { s with rsp := some ⟨.error .noKey, 0⟩ })) ∧
  (∀ (s : State) (j : Fin 4), s.ScheduleValid → s.KV = true →
    exec (.rdw j.val) s = .next { s with rsp := some ⟨.ok, s.K[j]⟩ })

/-! ### Cipher Driver -/

/-- ENCRYPT and DECRYPT transform `S` alone, answer `E_NOKEY` with no change while `KV` is 0, undo each other, and
give the rules' example (45 R122, R123). -/
def Obligations.EncryptAndDecryptTransformS : Prop :=
  EncodedN 0x60#8 .encrypt ∧ EncodedN 0x61#8 .decrypt ∧
  (∀ s : State, s.KV = true →
    exec .encrypt s = .next { s with S := encryptBlock .asc s.S s.W, rsp := okZero } ∧
    exec .decrypt s = .next { s with S := decryptBlock .asc s.S s.W, rsp := okZero }) ∧
  (∀ s : State, s.KV = false →
    exec .encrypt s = .next { s with rsp := some ⟨.error .noKey, 0⟩ } ∧
    exec .decrypt s = .next { s with rsp := some ⟨.error .noKey, 0⟩ }) ∧
  (∀ s t : State, s.KV = true → exec .encrypt s = .next t → exec .decrypt t = .next { s with rsp := okZero }) ∧
  (∀ s t : State, s.KV = true → exec .decrypt s = .next t → exec .encrypt t = .next { s with rsp := okZero }) ∧
  (∀ s t : State, s.KV = true → s.W = expandKey #v[0x2B7E1516#32, 0x28AED2A6#32, 0xABF71588#32, 0x09CF4F3C#32] →
    (s.S = hexBlock 0x3243F6A8885A308D313198A2E0370734 → exec .encrypt s = .next t →
      t.S = hexBlock 0x3925841D02DC09FBDC118597196A0B32) ∧
    (s.S = hexBlock 0x3925841D02DC09FBDC118597196A0B32 → exec .decrypt s = .next t →
      t.S = hexBlock 0x3243F6A8885A308D313198A2E0370734))

/-- The round trip: decryption undoes encryption, and the converse, for every State and every 44 Words, whether or
not they came from a key, under either order; and so do the commands (45 R124, 00 R6).
The spec marks R124 as derived. -/
def Obligations.DecryptionUndoesEncryption : Prop :=
  (∀ (ord : Config.WordOrder) (T : Block) (w : Schedule),
    decryptBlock ord (encryptBlock ord T w) w = T ∧ encryptBlock ord (decryptBlock ord T w) w = T) ∧
  (∀ (ord : Config.WordOrder) (s : State), s.KV = true →
    (∃ t, execUnder ord .encrypt s = .next t ∧ execUnder ord .decrypt t = .next { s with rsp := okZero }) ∧
    (∃ t, execUnder ord .decrypt s = .next t ∧ execUnder ord .encrypt t = .next { s with rsp := okZero }))

/-- With `KV = 1`, ENCRYPT leaves the whole state as its forty primitive commands do, each of which answers `OK, 0`,
and DECRYPT likewise (45 R125).
The spec marks R125 as derived. -/
def Obligations.CipherEqualsFortyPrimitiveCommands : Prop :=
  ∀ s : State, s.KV = true →
    exec .encrypt s = execAll encryptCommands s ∧ exec .decrypt s = execAll decryptCommands s ∧
    responses encryptCommands s = List.replicate 40 okZero ∧ responses decryptCommands s = List.replicate 40 okZero

/-- The result of ENCRYPT and DECRYPT is a function of `S` and `W` alone, and once a block is loaded nothing of an
earlier block remains (45 R126, 20 R34). -/
def Obligations.BlocksAreIndependent : Prop :=
  (∀ s s' t : State, s.KV = true → s'.KV = true → s'.S = s.S → s'.W = s.W →
    (exec .encrypt s = .next t → ∃ t', exec .encrypt s' = .next t' ∧ t'.S = t.S) ∧
    (exec .decrypt s = .next t → ∃ t', exec .decrypt s' = .next t' ∧ t'.S = t.S)) ∧
  (∀ (s : State) (T : Block) (x : Option Response) (h : Vector Byte 16) (rest : List Instr),
    execAll (ldblk h ++ rest) { s with S := T, rsp := x } = execAll (ldblk h ++ rest) s)

/-! ### Blocks and keys as the host moves them -/

/-- LDBLK and RDBLK move a block in the order of its bytes: block byte `n` is `S[n div 4][n mod 4]` (30 R45, R46,
20 R23); LDKEY128 loads key byte `n` into byte `n mod 4` of `K[n div 4]` (30 R47, 20 R24). -/
def Obligations.BlockAndKeyByteOrder : Prop :=
  (∀ (s : State) (h : Vector Byte 16), ∃ t, execAll (ldblk h) s = .next t ∧
    t = { s with S := t.S, rsp := okZero } ∧ ∀ c r : Fin 4, t.S[c][r] = h[4 * c.val + r.val]) ∧
  (∀ s : State, ∃ r0 r1 r2 r3 : Word,
    responses rdblk s = [some ⟨.ok, r0⟩, some ⟨.ok, r1⟩, some ⟨.ok, r2⟩, some ⟨.ok, r3⟩] ∧
    (∀ c r : Fin 4, (bytesOfResults #v[r0, r1, r2, r3])[4 * c.val + r.val] = s.S[c][r]) ∧
    ∃ t, execAll rdblk s = .next t ∧ t = { s with rsp := t.rsp }) ∧
  (∀ (s : State) (h : Vector Byte 16), ∃ t, execAll (ldkey128 h) s = .next t ∧
    t = { s with K := t.K, KV := false, rsp := okZero } ∧
    ∀ j k : Fin 4, byte t.K[j] k = h[4 * j.val + k.val])

/-- From any state: SETKEY, then encrypting a block and decrypting what was read back returns the block, with the
schedule of the key in `W` (30 R47, 70 R157, 45 R124). -/
def Obligations.EncryptedBlockDecryptsFromAnyState : Prop :=
  ∀ (s : State) (k h : Vector Byte 16), ∃ t u C, execAll (setkey k ++ ldblk h ++ [.encrypt]) s = .next t ∧
    (∀ c r : Fin 4, (C : Vector Byte 16)[4 * c.val + r.val] = t.S[c][r]) ∧
    execAll (ldblk C ++ [.decrypt]) t = .next u ∧
    (∀ c r : Fin 4, u.S[c][r] = h[4 * c.val + r.val]) ∧
    u.KV = true ∧ u.W = expandKey u.K ∧ (∀ j b : Fin 4, byte u.K[j] b = k[4 * j.val + b.val])
end

