-- ==== Sys2Proof/Laws/Config.lean ====
section
/-! SUPPORT. The sizes of the registers are those of the parameters (00 R5), and the two constant Words (42 R72). -/

namespace Sys2Proof.Config

theorem nw_eq : nw = nb * (nr + 1) := rfl

theorem schedule_eq : Schedule = Vector Word nw := rfl

theorem key_eq : Key = Vector Word nk := rfl

theorem block_eq : Block = Vector (Vector Byte 4) nb := rfl

end Sys2Proof.Config

namespace Sys2Proof.Machine

@[simp] theorem fwdConst_asc : fwdConst .asc = 0x02010103#32 := by decide

@[simp] theorem invConst_asc : invConst .asc = 0x0E090D0B#32 := by decide

@[simp] theorem fwdConst_desc : fwdConst .desc = 0x03010102#32 := by decide

@[simp] theorem invConst_desc : invConst .desc = 0x0B0D090E#32 := by decide

end Sys2Proof.Machine
end

