-- ==== Sys2Proof/Laws/Encoding.lean ====
section
/-! SUPPORT. The fields of a command word, and the operand fields (30 R35, R38). -/

namespace Sys2Proof

@[simp] theorem opField_cmdWord (op : BitVec 8) (a b : Word) : opField (cmdWord op a b) = op := by
  apply BitVec.eq_of_getLsbD_eq; intro i hi
  simp [opField, cmdWord, hi, show 64 + i < 72 by omega, BitVec.getLsbD_of_ge a (64 + i - 32) (by omega),
    BitVec.getLsbD_of_ge b (64 + i) (by omega)]

@[simp] theorem aField_cmdWord (op : BitVec 8) (a b : Word) : aField (cmdWord op a b) = a := by
  apply BitVec.eq_of_getLsbD_eq; intro i hi
  simp [aField, cmdWord, hi, show 32 + i < 72 by omega, show 32 + i < 64 by omega]

@[simp] theorem bField_cmdWord (op : BitVec 8) (a b : Word) : bField (cmdWord op a b) = b := by
  apply BitVec.eq_of_getLsbD_eq; intro i hi
  simp [bField, cmdWord, hi, show i < 72 by omega, show i < 64 by omega]

/-- A command word is the word of its fields (30 R35). -/
@[simp] theorem cmdWord_fields (c : CmdWord) : cmdWord (opField c) (aField c) (bField c) = c := by
  apply BitVec.eq_of_getLsbD_eq; intro i hi
  rcases Nat.lt_or_ge i 32 with h | h
  · simp [opField, aField, bField, cmdWord, hi, h, show i < 64 by omega]
  · rcases Nat.lt_or_ge i 64 with h' | h'
    · simp [opField, aField, bField, cmdWord, hi, h', show ¬ i < 32 by omega, show i - 32 < 32 by omega,
        show 32 + (i - 32) = i by omega]
    · simp [opField, aField, bField, cmdWord, hi, show ¬ i < 64 by omega, show ¬ i < 32 by omega,
        show i - 64 < 8 by omega, show ¬ i - 32 < 32 by omega, show 64 + (i - 64) = i by omega]

@[simp] theorem lowByte_byteOperand (x : Byte) : lowByte (byteOperand x) = x := by
  apply BitVec.eq_of_getLsbD_eq; intro i hi
  simp [lowByte, byteOperand, hi, show i < 32 by omega]

@[simp] theorem aboveByte_byteOperand (x : Byte) : aboveByte (byteOperand x) = 0 := by
  apply BitVec.eq_of_getLsbD_eq; intro i hi; simp [aboveByte, byteOperand]

@[simp] theorem aboveIndex_indexOperand (idx : Nat) : aboveIndex (indexOperand idx) = 0 := by
  apply BitVec.eq_of_getLsbD_eq; intro i hi; simp [aboveIndex, indexOperand]

/-- An index that fits its field is read back. -/
theorem lowIndex_indexOperand {idx : Nat} (h : idx < 64) : lowIndex (indexOperand idx) = idx := by
  simp [lowIndex, indexOperand]; omega

/-- A field with nothing above its low byte is that byte's operand. -/
theorem byteOperand_lowByte {v : Word} (h : aboveByte v = 0) : byteOperand (lowByte v) = v := by
  apply BitVec.eq_of_toNat_eq
  have h0 := congrArg BitVec.toNat h
  simp [aboveByte, Nat.shiftRight_eq_div_pow] at h0
  have hv := v.isLt
  simp [byteOperand, lowByte]
  omega

/-- A field with nothing above its low six bits is that index's operand. -/
theorem indexOperand_lowIndex {v : Word} (h : aboveIndex v = 0) : indexOperand (lowIndex v) = v := by
  apply BitVec.eq_of_toNat_eq
  have h0 := congrArg BitVec.toNat h
  simp [aboveIndex, Nat.shiftRight_eq_div_pow] at h0
  have hv := v.isLt
  simp [indexOperand, lowIndex]
  omega

theorem lowIndex_lt (v : Word) : lowIndex v < 64 := (v.extractLsb' 0 6).isLt

end Sys2Proof
end

