-- ==== Sys2Proof/Laws/Field.lean ====
section
/-! SUPPORT. The inverse by the extended Euclidean algorithm is the inverse of 40 R54, and the bits of a byte. -/

namespace Sys2Proof.Machine

@[simp] theorem gfInv_zero : gfInv 0 = none := rfl

/-- Every nonzero byte has the inverse the algorithm finds (40 R54; all 255 evaluated). -/
theorem gfInv_table : ∀ n : Fin 255, ∃ b, gfInv (BitVec.ofNat 8 (n.val + 1)) = some b ∧
    gfMul (BitVec.ofNat 8 (n.val + 1)) b = 1 := by
  have h : ∀ n : Fin 255, (gfInv (BitVec.ofNat 8 (n.val + 1))).map (gfMul (BitVec.ofNat 8 (n.val + 1))) = some 1 := by
    decide +kernel
  intro n
  obtain ⟨b, hb, hm⟩ := Option.map_eq_some_iff.mp (h n)
  exact ⟨b, hb, hm⟩

/-- For a nonzero byte `gfInv` answers a byte whose product with it is 1 (40 R54). -/
theorem gfInv_spec {a : Byte} (h : a ≠ 0) : ∃ b, gfInv a = some b ∧ gfMul a b = 1 := by
  have hpos : a.toNat ≠ 0 := fun h0 => h (BitVec.eq_of_toNat_eq (by simpa using h0))
  have := gfInv_table ⟨a.toNat - 1, by omega⟩
  simpa [show a.toNat - 1 + 1 = a.toNat by omega] using this

/-- `gfInv` has no value at 0 only (40 R54). -/
theorem gfInv_eq_none_iff (a : Byte) : gfInv a = none ↔ a = 0 := by
  constructor
  · intro h
    by_contra h0
    obtain ⟨b, hb, -⟩ := gfInv_spec h0
    simp [hb] at h
  · rintro rfl; rfl

/-- The bits of a byte listed from bit 0 up (all 256 bytes evaluated). -/
theorem ofBoolListLE_bits : ∀ b0 b1 b2 b3 b4 b5 b6 b7 : Bool,
    (BitVec.ofBoolListLE [b0, b1, b2, b3, b4, b5, b6, b7]).getLsbD 0 = b0 ∧ (BitVec.ofBoolListLE [b0, b1, b2, b3, b4, b5, b6, b7]).getLsbD 1 = b1 ∧
    (BitVec.ofBoolListLE [b0, b1, b2, b3, b4, b5, b6, b7]).getLsbD 2 = b2 ∧ (BitVec.ofBoolListLE [b0, b1, b2, b3, b4, b5, b6, b7]).getLsbD 3 = b3 ∧
    (BitVec.ofBoolListLE [b0, b1, b2, b3, b4, b5, b6, b7]).getLsbD 4 = b4 ∧ (BitVec.ofBoolListLE [b0, b1, b2, b3, b4, b5, b6, b7]).getLsbD 5 = b5 ∧
    (BitVec.ofBoolListLE [b0, b1, b2, b3, b4, b5, b6, b7]).getLsbD 6 = b6 ∧ (BitVec.ofBoolListLE [b0, b1, b2, b3, b4, b5, b6, b7]).getLsbD 7 = b7 := by
  decide +kernel

/-- Bit `i` of the byte made of the bits `f`. -/
theorem byteOfBits_get (f : Fin 8 → Bool) (i : Fin 8) : (byteOfBits f).getLsbD i.val = f i := by
  obtain ⟨h0, h1, h2, h3, h4, h5, h6, h7⟩ := ofBoolListLE_bits (f 0) (f 1) (f 2) (f 3) (f 4) (f 5) (f 6) (f 7)
  match i with
  | 0 => exact h0
  | 1 => exact h1
  | 2 => exact h2
  | 3 => exact h3
  | 4 => exact h4
  | 5 => exact h5
  | 6 => exact h6
  | 7 => exact h7

end Sys2Proof.Machine
end

