-- ==== Sys2Proof/Laws/Operands.lean ====
section
/-! SUPPORT. The bytes of a Word, columns as Words, and the bytes of a State. -/

namespace Sys2Proof.Machine

@[simp] theorem byte_word_0 (b0 b1 b2 b3 : Byte) : byte (word b0 b1 b2 b3) 0 = b0 := by
  apply BitVec.eq_of_getLsbD_eq; intro i hi
  simp [byte, word, hi, show 24 + i < 32 by omega, BitVec.getLsbD_of_ge b1 (24 + i - 16) (by omega),
      BitVec.getLsbD_of_ge b2 (24 + i - 8) (by omega), BitVec.getLsbD_of_ge b3 (24 + i) (by omega)]

@[simp] theorem byte_word_1 (b0 b1 b2 b3 : Byte) : byte (word b0 b1 b2 b3) 1 = b1 := by
  apply BitVec.eq_of_getLsbD_eq; intro i hi
  simp [byte, word, hi, show 16 + i < 32 by omega, show 16 + i < 24 by omega,
      BitVec.getLsbD_of_ge b2 (16 + i - 8) (by omega), BitVec.getLsbD_of_ge b3 (16 + i) (by omega)]

@[simp] theorem byte_word_2 (b0 b1 b2 b3 : Byte) : byte (word b0 b1 b2 b3) 2 = b2 := by
  apply BitVec.eq_of_getLsbD_eq; intro i hi
  simp [byte, word, hi, show 8 + i < 32 by omega, show 8 + i < 24 by omega, show 8 + i < 16 by omega]

@[simp] theorem byte_word_3 (b0 b1 b2 b3 : Byte) : byte (word b0 b1 b2 b3) 3 = b3 := by
  apply BitVec.eq_of_getLsbD_eq; intro i hi
  simp [byte, word, hi, show i < 32 by omega, show i < 24 by omega, show i < 16 by omega]

/-- A Word is the Word of its bytes (20 R22). -/
@[simp] theorem word_bytes (w : Word) : word (byte w 0) (byte w 1) (byte w 2) (byte w 3) = w := by
  apply BitVec.eq_of_getLsbD_eq; intro i hi
  rcases (by omega : i < 8 ∨ 8 ≤ i ∧ i < 16 ∨ 16 ≤ i ∧ i < 24 ∨ 24 ≤ i) with h | h | h | h
  · simp [byte, word, hi, show i < 24 by omega, show i < 16 by omega, show i < 8 by omega]
  · simp [byte, word, hi, show i < 24 by omega, show i < 16 by omega, show ¬ i < 8 by omega,
        show i - 8 < 8 by omega, show 8 + (i - 8) = i by omega]
  · simp [byte, word, hi, show i < 24 by omega, show ¬ i < 16 by omega, show i - 16 < 8 by omega,
        show 16 + (i - 16) = i by omega, show ¬ i < 8 by omega, show ¬ i - 8 < 8 by omega]
  · simp [byte, word, hi, show ¬ i < 24 by omega, show i - 24 < 8 by omega, show 24 + (i - 24) = i by omega,
        show ¬ i < 16 by omega, show ¬ i - 16 < 8 by omega, show ¬ i < 8 by omega, show ¬ i - 8 < 8 by omega]

/-- The byte of a State written by `blockOf`. -/
@[simp] theorem blockOf_getElem (f : Fin 4 → Fin 4 → Byte) (c r : Nat) (hc : c < 4) (hr : r < 4) :
    (blockOf f)[c][r] = f ⟨c, hc⟩ ⟨r, hr⟩ := by simp [blockOf]

theorem blockOf_get (f : Fin 4 → Fin 4 → Byte) (c r : Fin 4) : (blockOf f)[c][r] = f c r := by simp

/-- Two States are equal if their sixteen bytes are. -/
theorem block_ext {T U : Block} (h : ∀ c r : Fin 4, T[c][r] = U[c][r]) : T = U := by
  apply Vector.ext; intro c hc
  apply Vector.ext; intro r hr
  exact h ⟨c, hc⟩ ⟨r, hr⟩

/-- Row `r` of the column a Word loads is its byte `r` (20 R23). -/
@[simp] theorem columnOfWord_getElem (w : Word) (r : Nat) (hr : r < 4) :
    (columnOfWord w)[r] = byte w ⟨r, hr⟩ := by simp [columnOfWord]

@[simp] theorem wordOfColumn_columnOfWord (w : Word) : wordOfColumn (columnOfWord w) = w :=
  word_bytes w

/-- Byte `r` of a column's Word is its row `r` (20 R23). -/
@[simp] theorem byte_wordOfColumn (col : Column) (r : Fin 4) : byte (wordOfColumn col) r = col[r] := by
  match r with
  | 0 => exact byte_word_0 ..
  | 1 => exact byte_word_1 ..
  | 2 => exact byte_word_2 ..
  | 3 => exact byte_word_3 ..

@[simp] theorem columnOfWord_wordOfColumn (col : Column) : columnOfWord (wordOfColumn col) = col := by
  apply Vector.ext; intro r hr
  exact (columnOfWord_getElem _ r hr).trans (byte_wordOfColumn col ⟨r, hr⟩)

/-- An index below the bound is itself. -/
theorem indexBelow_of_lt {n idx : Nat} (h : idx < n) : indexBelow n idx = some ⟨idx, h⟩ := dif_pos h

/-- An index not below the bound is none. -/
theorem indexBelow_of_le {n idx : Nat} (h : n ≤ idx) : indexBelow n idx = none := dif_neg (by omega)

end Sys2Proof.Machine
end

