-- ==== Sys2Proof/Laws/State.lean ====
section
/-! SUPPORT. What each update of the state leaves in each field: one lemma per field per update, so that no later
proof unfolds a record update. -/

namespace Sys2Proof.Machine

variable (s : State)

@[simp] theorem State.writeColumn_S (c : Fin 4) (w : Word) : (s.writeColumn c w).S = s.S.set c (columnOfWord w) := rfl
@[simp] theorem State.writeColumn_K (c : Fin 4) (w : Word) : (s.writeColumn c w).K = s.K := rfl
@[simp] theorem State.writeColumn_W (c : Fin 4) (w : Word) : (s.writeColumn c w).W = s.W := rfl
@[simp] theorem State.writeColumn_KV (c : Fin 4) (w : Word) : (s.writeColumn c w).KV = s.KV := rfl
@[simp] theorem State.writeColumn_inputs (c : Fin 4) (w : Word) : (s.writeColumn c w).inputs = s.inputs := rfl
@[simp] theorem State.writeColumn_rsp (c : Fin 4) (w : Word) : (s.writeColumn c w).rsp = s.rsp := rfl
@[simp] theorem State.writeColumn_draws (c : Fin 4) (w : Word) : (s.writeColumn c w).draws = s.draws := rfl

@[simp] theorem State.writeS_S (T : Block) : (s.writeS T).S = T := rfl
@[simp] theorem State.writeS_K (T : Block) : (s.writeS T).K = s.K := rfl
@[simp] theorem State.writeS_W (T : Block) : (s.writeS T).W = s.W := rfl
@[simp] theorem State.writeS_KV (T : Block) : (s.writeS T).KV = s.KV := rfl
@[simp] theorem State.writeS_inputs (T : Block) : (s.writeS T).inputs = s.inputs := rfl
@[simp] theorem State.writeS_rsp (T : Block) : (s.writeS T).rsp = s.rsp := rfl
@[simp] theorem State.writeS_draws (T : Block) : (s.writeS T).draws = s.draws := rfl

@[simp] theorem State.writeKeyWord_S (j : Fin 4) (w : Word) : (s.writeKeyWord j w).S = s.S := rfl
@[simp] theorem State.writeKeyWord_K (j : Fin 4) (w : Word) : (s.writeKeyWord j w).K = s.K.set j w := rfl
@[simp] theorem State.writeKeyWord_W (j : Fin 4) (w : Word) : (s.writeKeyWord j w).W = s.W := rfl
@[simp] theorem State.writeKeyWord_KV (j : Fin 4) (w : Word) : (s.writeKeyWord j w).KV = s.KV := rfl
@[simp] theorem State.writeKeyWord_inputs (j : Fin 4) (w : Word) : (s.writeKeyWord j w).inputs = s.inputs := rfl
@[simp] theorem State.writeKeyWord_rsp (j : Fin 4) (w : Word) : (s.writeKeyWord j w).rsp = s.rsp := rfl
@[simp] theorem State.writeKeyWord_draws (j : Fin 4) (w : Word) : (s.writeKeyWord j w).draws = s.draws := rfl

@[simp] theorem State.writeW_S (w : Schedule) : (s.writeW w).S = s.S := rfl
@[simp] theorem State.writeW_K (w : Schedule) : (s.writeW w).K = s.K := rfl
@[simp] theorem State.writeW_W (w : Schedule) : (s.writeW w).W = w := rfl
@[simp] theorem State.writeW_KV (w : Schedule) : (s.writeW w).KV = s.KV := rfl
@[simp] theorem State.writeW_inputs (w : Schedule) : (s.writeW w).inputs = s.inputs := rfl
@[simp] theorem State.writeW_rsp (w : Schedule) : (s.writeW w).rsp = s.rsp := rfl
@[simp] theorem State.writeW_draws (w : Schedule) : (s.writeW w).draws = s.draws := rfl

@[simp] theorem State.setKV_S : (s.setKV).S = s.S := rfl
@[simp] theorem State.setKV_K : (s.setKV).K = s.K := rfl
@[simp] theorem State.setKV_W : (s.setKV).W = s.W := rfl
@[simp] theorem State.setKV_KV : (s.setKV).KV = true := rfl
@[simp] theorem State.setKV_inputs : (s.setKV).inputs = s.inputs := rfl
@[simp] theorem State.setKV_rsp : (s.setKV).rsp = s.rsp := rfl
@[simp] theorem State.setKV_draws : (s.setKV).draws = s.draws := rfl

@[simp] theorem State.clearKV_S : (s.clearKV).S = s.S := rfl
@[simp] theorem State.clearKV_K : (s.clearKV).K = s.K := rfl
@[simp] theorem State.clearKV_W : (s.clearKV).W = s.W := rfl
@[simp] theorem State.clearKV_KV : (s.clearKV).KV = false := rfl
@[simp] theorem State.clearKV_inputs : (s.clearKV).inputs = s.inputs := rfl
@[simp] theorem State.clearKV_rsp : (s.clearKV).rsp = s.rsp := rfl
@[simp] theorem State.clearKV_draws : (s.clearKV).draws = s.draws := rfl

@[simp] theorem State.resetEvent_S : (s.resetEvent).S = Config.unspecifiedS s.draws := rfl
@[simp] theorem State.resetEvent_K : (s.resetEvent).K = Config.unspecifiedK s.draws := rfl
@[simp] theorem State.resetEvent_W : (s.resetEvent).W = Config.unspecifiedW s.draws := rfl
@[simp] theorem State.resetEvent_KV : (s.resetEvent).KV = false := rfl
@[simp] theorem State.resetEvent_inputs : (s.resetEvent).inputs = s.inputs := rfl
@[simp] theorem State.resetEvent_rsp : (s.resetEvent).rsp = none := rfl
@[simp] theorem State.resetEvent_draws : (s.resetEvent).draws = s.draws + 1 := rfl

@[simp] theorem State.present_S (c : CmdWord) : (s.present c).S = s.S := rfl
@[simp] theorem State.present_K (c : CmdWord) : (s.present c).K = s.K := rfl
@[simp] theorem State.present_W (c : CmdWord) : (s.present c).W = s.W := rfl
@[simp] theorem State.present_KV (c : CmdWord) : (s.present c).KV = s.KV := rfl
@[simp] theorem State.present_inputs (c : CmdWord) : (s.present c).inputs = .command c :: s.inputs := rfl
@[simp] theorem State.present_rsp (c : CmdWord) : (s.present c).rsp = s.rsp := rfl
@[simp] theorem State.present_draws (c : CmdWord) : (s.present c).draws = s.draws := rfl

@[simp] theorem State.status_of_valid (h : s.KV = true) : s.status = 1#32 := by simp [State.status, h]

@[simp] theorem State.status_of_invalid (h : s.KV = false) : s.status = 0#32 := by simp [State.status, h]

end Sys2Proof.Machine
end

