-- ==== Sys2Proof/Laws/Ops.lean ====
section
/-! SUPPORT. What each shared operation can do, said once: later proofs cite these and do not unfold the
operations. -/

namespace Sys2Proof.Machine

variable {s t : State}

/-- A response changes `rsp` alone. -/
theorem respond_eq (s : State) (st : Status) (v : Word) : s.respond st v = .next { s with rsp := some ⟨st, v⟩ } := rfl

theorem ok_eq (s : State) (v : Word) : s.ok v = .next { s with rsp := some ⟨.ok, v⟩ } := rfl

/-- An error changes `rsp` alone, and its `r` is 0 (60 R142). -/
theorem raise_eq (s : State) (e : Err) : s.raise e = .next { s with rsp := some ⟨.error e, 0⟩ } := rfl

theorem withKey_of_valid (h : s.KV = true) (f : Result) : s.withKey f = f := by simp [State.withKey, h]

theorem withKey_of_invalid (h : s.KV = false) (f : Result) :
    s.withKey f = .next { s with rsp := some ⟨.error .noKey, 0⟩ } := by simp [State.withKey, h, raise_eq]

/-- `withKey` either has a key and is what it guards, or raises `E_NOKEY`. -/
theorem withKey_cases (s : State) (f : Result) :
    (s.KV = true ∧ s.withKey f = f) ∨
      (s.KV = false ∧ s.withKey f = .next { s with rsp := some ⟨.error .noKey, 0⟩ }) := by
  rcases Bool.eq_false_or_eq_true s.KV with h | h
  · exact .inl ⟨h, withKey_of_valid h f⟩
  · exact .inr ⟨h, withKey_of_invalid h f⟩

theorem withIndex_of_lt {n idx : Nat} (h : idx < n) (f : Fin n → Result) : s.withIndex n idx f = f ⟨idx, h⟩ := by
  simp [State.withIndex, indexBelow_of_lt h]

theorem withIndex_of_le {n idx : Nat} (h : n ≤ idx) (f : Fin n → Result) :
    s.withIndex n idx f = .next { s with rsp := some ⟨.error .index, 0⟩ } := by
  simp [State.withIndex, indexBelow_of_le h, raise_eq]

/-- `withIndex` either has the index in range, or raises `E_INDEX`. -/
theorem withIndex_cases (s : State) (n idx : Nat) (f : Fin n → Result) :
    (∃ h : idx < n, s.withIndex n idx f = f ⟨idx, h⟩) ∨
      (n ≤ idx ∧ s.withIndex n idx f = .next { s with rsp := some ⟨.error .index, 0⟩ }) := by
  rcases Nat.lt_or_ge idx n with h | h
  · exact .inl ⟨h, withIndex_of_lt h f⟩
  · exact .inr ⟨h, withIndex_of_le h f⟩

@[simp] theorem accept?_of_cons {x : Input} {rest : List Input} (h : s.inputs = x :: rest) :
    s.accept? = some (x, { s with inputs := rest }) := by simp [State.accept?, h]

@[simp] theorem accept?_of_nil (h : s.inputs = []) : s.accept? = none := by simp [State.accept?, h]

/-- The unit accepts what the host has just presented, and is then in the state before. -/
@[simp] theorem accept?_present (s : State) (c : CmdWord) : (s.present c).accept? = some (.command c, s) := rfl

end Sys2Proof.Machine
end

