-- ==== Sys2Proof/Laws/PerInstr.lean ====
section
/-! SUPPORT. One family of statements about every command as syntax: its encoding selects its own row of the
opcode table (30 R39). One lemma per constructor. -/

namespace Sys2Proof

/-- Reading a field of `c &&& d` reads it of both. -/
theorem opField_and (c d : CmdWord) : opField (c &&& d) = opField c &&& opField d := by
  simp [opField, BitVec.extractLsb'_and]

theorem aField_and (c d : CmdWord) : aField (c &&& d) = aField c &&& aField d := by
  simp [aField, BitVec.extractLsb'_and]

theorem bField_and (c d : CmdWord) : bField (c &&& d) = bField c &&& bField d := by
  simp [bField, BitVec.extractLsb'_and]

/-- The bitwise and of two command words is taken field by field. -/
theorem cmdWord_and (o o' : BitVec 8) (a a' b b' : Word) :
    cmdWord o a b &&& cmdWord o' a' b' = cmdWord (o &&& o') (a &&& a') (b &&& b') := by
  rw [← cmdWord_fields (cmdWord o a b &&& cmdWord o' a' b')]
  simp only [opField_and, aField_and, bField_and, opField_cmdWord, aField_cmdWord, bField_cmdWord]

theorem byteOperand_and_above (x : Byte) : byteOperand x &&& 0xFFFFFF00#32 = 0 := by
  have h : ∀ n : Fin 256, byteOperand (BitVec.ofNat 8 n.val) &&& 0xFFFFFF00#32 = 0 := by decide +kernel
  simpa using h ⟨x.toNat, x.isLt⟩

theorem indexOperand_and_above (idx : Nat) : indexOperand idx &&& 0xFFFFFFC0#32 = 0 := by
  have h : ∀ n : Fin 64, (BitVec.ofNat 6 n.val).setWidth 32 &&& 0xFFFFFFC0#32 = 0 := by decide +kernel
  have := h ⟨(BitVec.ofNat 6 idx).toNat, (BitVec.ofNat 6 idx).isLt⟩
  rwa [BitVec.ofNat_toNat, BitVec.setWidth_eq] at this

theorem maskN_eq : maskN = cmdWord 0xFF#8 0xFFFFFFFF#32 0xFFFFFFFF#32 := by decide

theorem maskB1_eq : maskB1 = cmdWord 0xFF#8 0xFFFFFF00#32 0xFFFFFFFF#32 := by decide

theorem maskB2_eq : maskB2 = cmdWord 0xFF#8 0xFFFFFF00#32 0xFFFFFF00#32 := by decide

theorem maskW1_eq : maskW1 = cmdWord 0xFF#8 0#32 0xFFFFFFFF#32 := by decide

theorem maskW2_eq : maskW2 = cmdWord 0xFF#8 0#32 0#32 := by decide

theorem maskI_eq : maskI = cmdWord 0xFF#8 0xFFFFFFFF#32 0xFFFFFFC0#32 := by decide

theorem maskWI_eq : maskWI = cmdWord 0xFF#8 0#32 0xFFFFFFC0#32 := by decide

namespace Laws.OpcodeRow

/-- The encoding of the command selects the row of its mnemonic (30 R39). -/
def Statement (i : Instr) : Prop :=
  ∃ r ∈ opcodeRows, r.mnemonic = i.mnemonic ∧ encode i &&& r.mask = r.pattern

/-- A row of the table that the encoding selects is all that is needed. -/
theorem of_row {i : Instr} (r : Row) (hr : r ∈ opcodeRows) (hm : r.mnemonic = i.mnemonic)
    (hs : encode i &&& r.mask = r.pattern) : Statement i := ⟨r, hr, hm, hs⟩

theorem rdstat : Statement .rdstat :=
  of_row ⟨"RDSTAT", 0x010000000000000000#72, maskN⟩ (by decide) rfl (by decide)

theorem gfadd (x y : Byte) : Statement (.gfadd x y) :=
  of_row ⟨"GFADD", 0x100000000000000000#72, maskB2⟩ (by decide) rfl (by
    rw [encode, maskB2_eq, cmdWord_and, byteOperand_and_above, byteOperand_and_above]; rfl)

theorem gfmul (x y : Byte) : Statement (.gfmul x y) :=
  of_row ⟨"GFMUL", 0x110000000000000000#72, maskB2⟩ (by decide) rfl (by
    rw [encode, maskB2_eq, cmdWord_and, byteOperand_and_above, byteOperand_and_above]; rfl)

theorem gfpow (x y : Byte) : Statement (.gfpow x y) :=
  of_row ⟨"GFPOW", 0x120000000000000000#72, maskB2⟩ (by decide) rfl (by
    rw [encode, maskB2_eq, cmdWord_and, byteOperand_and_above, byteOperand_and_above]; rfl)

theorem gfinv (x : Byte) : Statement (.gfinv x) :=
  of_row ⟨"GFINV", 0x130000000000000000#72, maskB1⟩ (by decide) rfl (by
    rw [encode, maskB1_eq, cmdWord_and, byteOperand_and_above]; rfl)

theorem sbox (x : Byte) : Statement (.sbox x) :=
  of_row ⟨"SBOX", 0x200000000000000000#72, maskB1⟩ (by decide) rfl (by
    rw [encode, maskB1_eq, cmdWord_and, byteOperand_and_above]; rfl)

theorem isbox (x : Byte) : Statement (.isbox x) :=
  of_row ⟨"ISBOX", 0x210000000000000000#72, maskB1⟩ (by decide) rfl (by
    rw [encode, maskB1_eq, cmdWord_and, byteOperand_and_above]; rfl)

theorem wmul (w v : Word) : Statement (.wmul w v) :=
  of_row ⟨"WMUL", 0x300000000000000000#72, maskW2⟩ (by decide) rfl (by
    rw [encode, maskW2_eq, cmdWord_and, BitVec.and_zero, BitVec.and_zero]; rfl)

theorem subbytes : Statement .subbytes :=
  of_row ⟨"SUBBYTES", 0x400000000000000000#72, maskN⟩ (by decide) rfl (by decide)

theorem invsubbytes : Statement .invsubbytes :=
  of_row ⟨"INVSUBBYTES", 0x410000000000000000#72, maskN⟩ (by decide) rfl (by decide)

theorem shiftrows : Statement .shiftrows :=
  of_row ⟨"SHIFTROWS", 0x420000000000000000#72, maskN⟩ (by decide) rfl (by decide)

theorem invshiftrows : Statement .invshiftrows :=
  of_row ⟨"INVSHIFTROWS", 0x430000000000000000#72, maskN⟩ (by decide) rfl (by decide)

theorem mixcolumns : Statement .mixcolumns :=
  of_row ⟨"MIXCOLUMNS", 0x440000000000000000#72, maskN⟩ (by decide) rfl (by decide)

theorem invmixcolumns : Statement .invmixcolumns :=
  of_row ⟨"INVMIXCOLUMNS", 0x450000000000000000#72, maskN⟩ (by decide) rfl (by decide)

theorem addroundkey (idx : Nat) : Statement (.addroundkey idx) :=
  of_row ⟨"ADDROUNDKEY", 0x460000000000000000#72, maskI⟩ (by decide) rfl (by
    rw [encode, maskI_eq, cmdWord_and, indexOperand_and_above]; rfl)

theorem lds (idx : Nat) (w : Word) : Statement (.lds idx w) :=
  of_row ⟨"LDS", 0x480000000000000000#72, maskWI⟩ (by decide) rfl (by
    rw [encode, maskWI_eq, cmdWord_and, indexOperand_and_above, BitVec.and_zero]; rfl)

theorem rds (idx : Nat) : Statement (.rds idx) :=
  of_row ⟨"RDS", 0x490000000000000000#72, maskI⟩ (by decide) rfl (by
    rw [encode, maskI_eq, cmdWord_and, indexOperand_and_above]; rfl)

theorem rotword (w : Word) : Statement (.rotword w) :=
  of_row ⟨"ROTWORD", 0x500000000000000000#72, maskW1⟩ (by decide) rfl (by
    rw [encode, maskW1_eq, cmdWord_and, BitVec.and_zero]; rfl)

theorem subword (w : Word) : Statement (.subword w) :=
  of_row ⟨"SUBWORD", 0x510000000000000000#72, maskW1⟩ (by decide) rfl (by
    rw [encode, maskW1_eq, cmdWord_and, BitVec.and_zero]; rfl)

theorem rcon (x : Byte) : Statement (.rcon x) :=
  of_row ⟨"RCON", 0x520000000000000000#72, maskB1⟩ (by decide) rfl (by
    rw [encode, maskB1_eq, cmdWord_and, byteOperand_and_above]; rfl)

theorem ldkey (idx : Nat) (w : Word) : Statement (.ldkey idx w) :=
  of_row ⟨"LDKEY", 0x540000000000000000#72, maskWI⟩ (by decide) rfl (by
    rw [encode, maskWI_eq, cmdWord_and, indexOperand_and_above, BitVec.and_zero]; rfl)

theorem keyexpand : Statement .keyexpand :=
  of_row ⟨"KEYEXPAND", 0x550000000000000000#72, maskN⟩ (by decide) rfl (by decide)

theorem rdw (idx : Nat) : Statement (.rdw idx) :=
  of_row ⟨"RDW", 0x560000000000000000#72, maskI⟩ (by decide) rfl (by
    rw [encode, maskI_eq, cmdWord_and, indexOperand_and_above]; rfl)

theorem encrypt : Statement .encrypt :=
  of_row ⟨"ENCRYPT", 0x600000000000000000#72, maskN⟩ (by decide) rfl (by decide)

theorem decrypt : Statement .decrypt :=
  of_row ⟨"DECRYPT", 0x610000000000000000#72, maskN⟩ (by decide) rfl (by decide)

end Laws.OpcodeRow

end Sys2Proof
end

