-- ==== Sys2Proof/Laws/Step.lean ====
section
/-! SUPPORT. What a step can do, said once. -/

namespace Sys2Proof.Machine

variable {s t : State}

/-- With nothing presented the unit keeps its state (60 R152). -/
theorem step_idle (h : s.inputs = []) : step s = .next s := by simp [step, State.stepWith, h]

/-- A step that answers a next state was idle, a reset, an illegal word, or a command's meaning. -/
theorem step_cases (h : step s = .next t) :
    (s.inputs = [] ∧ t = s) ∨
    (∃ x rest, s.inputs = x :: rest ∧ (x = .reset ∨ ∃ c, x = .resetDuring c) ∧
      t = State.resetEvent { s with inputs := rest }) ∨
    (∃ c rest e, s.inputs = .command c :: rest ∧ decode c = .error e ∧
      t = { s with inputs := rest, rsp := some ⟨.error (errOfDecode e), 0⟩ }) ∨
    (∃ c rest i, s.inputs = .command c :: rest ∧ decode c = .ok i ∧ exec i { s with inputs := rest } = .next t) := by
  cases hin : s.inputs with
  | nil =>
    rw [step_idle hin] at h
    exact .inl ⟨rfl, by cases h; rfl⟩
  | cons x rest =>
    rw [step, State.stepWith, accept?_of_cons hin] at h
    cases x with
    | reset => exact .inr (.inl ⟨_, _, rfl, .inl rfl, by cases h; rfl⟩)
    | resetDuring c => exact .inr (.inl ⟨_, _, rfl, .inr ⟨c, rfl⟩, by cases h; rfl⟩)
    | command c =>
      cases hd : decode c with
      | error e =>
        simp only [hd, raise_eq] at h
        exact .inr (.inr (.inl ⟨c, rest, e, rfl, hd, by cases h; rfl⟩))
      | ok i =>
        simp only [hd] at h
        exact .inr (.inr (.inr ⟨c, rest, i, rfl, hd, h⟩))

/-- A presented word that is no command is answered `E_ILLEGAL` (60 R137). -/
theorem step_present_error {c : CmdWord} {e : DecodeError} (h : decode c = .error e) :
    step (s.present c) = .next { s with rsp := some ⟨.error .illegal, 0⟩ } := by
  simp only [step, State.stepWith, accept?_present, h, raise_eq]
  cases e <;> rfl

end Sys2Proof.Machine
end

