-- ==== Sys2Proof/Laws/Under.lean ====
section
/-! SUPPORT. Under the order this hardware takes, the machine with an order is the machine (00 R6); the commands that
do not depend on the order are the same under both (92 D7). -/

namespace Sys2Proof.Machine

open Sys2Proof.Config (WordOrder)

/-- The commands whose effect depends on `WORD_ORDER` (92 D7). -/
def orderDependent : Instr → Bool
  | .wmul _ _ | .mixcolumns | .invmixcolumns | .encrypt | .decrypt => true
  | .rdstat | .gfadd _ _ | .gfmul _ _ | .gfpow _ _ | .gfinv _ | .sbox _ | .isbox _ | .subbytes | .invsubbytes
  | .shiftrows | .invshiftrows | .addroundkey _ | .lds _ _ | .rds _ | .rotword _ | .subword _ | .rcon _
  | .ldkey _ _ | .keyexpand | .rdw _ => false

/-- The other commands are the same under every order. -/
theorem execUnder_of_independent {i : Instr} (h : orderDependent i = false) (ord : WordOrder) (s : State) :
    execUnder ord i s = exec i s := by
  cases i <;> first | (simp [orderDependent] at h; done) | rfl

/-- Under the order this hardware takes a command is the hardware's. -/
@[simp] theorem execUnder_wordOrder (i : Instr) (s : State) : execUnder Config.wordOrder i s = exec i s := by
  cases i <;> rfl

theorem execUnder_wordOrder_eq : execUnder Config.wordOrder = exec :=
  funext fun i => funext fun s => execUnder_wordOrder i s

@[simp] theorem stepUnder_wordOrder (s : State) : stepUnder Config.wordOrder s = step s := by
  rw [stepUnder, execUnder_wordOrder_eq, step]

theorem coreUnder_wordOrder : coreUnder Config.wordOrder = Sys2Proof.core := by
  simp only [coreUnder, Sys2Proof.core, Host.Core.mk.injEq, heq_eq_eq, true_and, and_true]
  exact funext stepUnder_wordOrder

end Sys2Proof.Machine
end

