-- ==== Sys2Proof/Tests/Slice0.lean ====
section
/-! SUPPORT. Small tests with expected values from spec/ (the rules' examples and the vectors of 95 and 96), the smoke
tests of well-formedness, and for every statement with hypotheses a concrete witness that meets them. -/

namespace Sys2Proof.Tests

open Sys2Proof Sys2Proof.Machine

/-- A small state: `S` is the block, the key register holds 2b7e1516 28aed2a6 abf71588 09cf4f3c, and of the schedule
only words 4 to 7 (round key 1 of that key, 95 section 5) and word 43 are not zero. -/
def small (block : Nat) (kv : Bool) : State where
  S := hexBlock block
  K := #v[0x2B7E1516#32, 0x28AED2A6#32, 0xABF71588#32, 0x09CF4F3C#32]
  W := Vector.ofFn fun i =>
    if i = 4 then 0xA0FAFE17#32 else if i = 5 then 0x88542CB1#32 else if i = 6 then 0x23A33939#32
    else if i = 7 then 0x2A6C7605#32 else if i = 43 then 0xB6630CA6#32 else 0#32
  KV := kv
  inputs := []
  rsp := none
  draws := 1

/-- The block `00 01 .. 0f` of the rules' examples. -/
def blockX : Nat := 0x000102030405060708090A0B0C0D0E0F

/-- The response a result leaves. -/
def answer : Result → Option Response
  | .next t => t.rsp
  | .fault _ => none
  | .refused _ => none

/-- Presenting the word `c` in `s` answers with the response word `r` (30 R36). -/
def Answers (s : State) (c : CmdWord) (r : RspWord) : Bool :=
  ((answer (step (s.present c))).map Response.rspWord) == some r

/-- Presenting the word `c` in `s` leaves `S` as the block `n`. -/
def Leaves (s : State) (c : CmdWord) (n : Nat) : Bool :=
  match step (s.present c) with
  | .next t => t.S == hexBlock n
  | .fault _ => false
  | .refused _ => false

/-- The step does not stop. -/
def goes : Result → Bool
  | .next _ => true
  | .fault _ => false
  | .refused _ => false

/-! ### Well-formedness: an index that does not fit six bits is refused, one that does is not (30 R38) -/

theorem test_wf_addroundkey : (Instr.addroundkey 64).wellFormed = false ∧ (Instr.addroundkey 63).wellFormed := by decide
theorem test_wf_lds : (Instr.lds 64 0).wellFormed = false ∧ (Instr.lds 63 0).wellFormed := by decide
theorem test_wf_rds : (Instr.rds 64).wellFormed = false ∧ (Instr.rds 63).wellFormed := by decide
theorem test_wf_ldkey : (Instr.ldkey 64 0).wellFormed = false ∧ (Instr.ldkey 63 0).wellFormed := by decide
theorem test_wf_rdw : (Instr.rdw 64).wellFormed = false ∧ (Instr.rdw 63).wellFormed := by decide

/-! ### Decoding: a word of every command written out from 30 R35, R37, R39 -/

theorem test_decode_system : decode 0x01_00000000_00000000#72 = .ok .rdstat := by decide
theorem test_decode_field :
    decode 0x10_00000057_00000083#72 = .ok (.gfadd 0x57 0x83) ∧
    decode 0x11_00000002_00000080#72 = .ok (.gfmul 0x02 0x80) ∧
    decode 0x12_00000002_000000FE#72 = .ok (.gfpow 0x02 0xFE) ∧
    decode 0x13_00000053_00000000#72 = .ok (.gfinv 0x53) := by decide
theorem test_decode_sbox :
    decode 0x20_000000CF_00000000#72 = .ok (.sbox 0xCF) ∧ decode 0x21_00000063_00000000#72 = .ok (.isbox 0x63) := by decide
theorem test_decode_word :
    decode 0x30_DB135345_02010103#72 = .ok (.wmul 0xDB135345#32 0x02010103#32) := by decide
theorem test_decode_transforms :
    decode 0x40_00000000_00000000#72 = .ok .subbytes ∧ decode 0x41_00000000_00000000#72 = .ok .invsubbytes ∧
    decode 0x42_00000000_00000000#72 = .ok .shiftrows ∧ decode 0x43_00000000_00000000#72 = .ok .invshiftrows ∧
    decode 0x44_00000000_00000000#72 = .ok .mixcolumns ∧ decode 0x45_00000000_00000000#72 = .ok .invmixcolumns := by
  decide
theorem test_decode_state :
    decode 0x46_00000000_0000000A#72 = .ok (.addroundkey 10) ∧
    decode 0x48_08090A0B_00000002#72 = .ok (.lds 2 0x08090A0B#32) ∧
    decode 0x49_00000000_00000003#72 = .ok (.rds 3) := by decide
theorem test_decode_key :
    decode 0x50_09CF4F3C_00000000#72 = .ok (.rotword 0x09CF4F3C#32) ∧
    decode 0x51_CF4F3C09_00000000#72 = .ok (.subword 0xCF4F3C09#32) ∧
    decode 0x52_00000034_00000000#72 = .ok (.rcon 52) ∧
    decode 0x54_2B7E1516_00000003#72 = .ok (.ldkey 3 0x2B7E1516#32) ∧
    decode 0x55_00000000_00000000#72 = .ok .keyexpand ∧
    decode 0x56_00000000_0000002B#72 = .ok (.rdw 43) := by decide
theorem test_decode_cipher :
    decode 0x60_00000000_00000000#72 = .ok .encrypt ∧ decode 0x61_00000000_00000000#72 = .ok .decrypt := by decide
/-- 95 section 8: the first unassigned opcodes, and one must-be-zero bit of formats N, B1, B2, W1, I, WI. -/
theorem test_decode_illegal :
    ([0x00_00000000_00000000#72, 0x02_00000000_00000000#72, 0x14_00000000_00000000#72, 0x47_00000000_00000000#72,
      0x53_00000000_00000000#72, 0x62_00000000_00000000#72, 0xFF_FFFFFFFF_FFFFFFFF#72, 0x01_00000000_00000001#72,
      0x13_00000053_00000001#72, 0x11_00000057_80000083#72, 0x50_01020304_00000001#72, 0x56_00000001_00000032#72,
      0x56_00000000_00000040#72, 0x48_00000000_00000040#72].all fun c => (decode c).isOk == false) = true := by decide

/-- The opcode table's word of GFPOW with its operand bits, and a number of more than 72 bits (log entry 12). -/
theorem test_table_word :
    decodeTableWord 72 0x12_00000002_000000FE = some (.gfpow 0x02 0xFE) ∧ decodeTableWord 80 (2 ^ 72) = none := by decide
theorem test_fetch_word : (State.reset.withFetchWord 72 0x01_00000000_00000000).inputs =
    [.command 0x01_00000000_00000000#72] := by decide
/-- The first word after reset is performed (95 section 8: RDSTAT answers 0). -/
theorem test_first_step : Answers State.reset 0x01_00000000_00000000#72 0x0_00000000#36 = true := by decide

/-! ### One step of every command (examples of the rules, 95 and 96) -/

theorem test_rdstat : Answers (small blockX true) 0x01_00000000_00000000#72 0x0_00000001#36 ∧
    Answers (small blockX false) 0x01_00000000_00000000#72 0x0_00000000#36 := by decide +kernel
theorem test_gfadd : Answers (small blockX false) 0x10_00000057_00000083#72 0x0_000000D4#36 := by decide +kernel
theorem test_gfmul : Answers (small blockX false) 0x11_00000057_00000083#72 0x0_000000C1#36 ∧
    Answers (small blockX false) 0x11_000000FF_000000FF#72 0x0_00000013#36 := by decide +kernel
theorem test_gfpow : Answers (small blockX false) 0x12_00000003_00000055#72 0x0_000000BD#36 ∧
    Answers (small blockX false) 0x12_00000000_00000000#72 0x0_00000001#36 := by decide +kernel
theorem test_gfinv : Answers (small blockX false) 0x13_000000FF_00000000#72 0x0_0000001C#36 ∧
    Answers (small blockX false) 0x13_00000000_00000000#72 0x3_00000000#36 := by decide +kernel
theorem test_sbox : Answers (small blockX false) 0x20_000000FF_00000000#72 0x0_00000016#36 ∧
    Answers (small blockX false) 0x20_00000000_00000000#72 0x0_00000063#36 := by decide +kernel
theorem test_isbox : Answers (small blockX false) 0x21_00000016_00000000#72 0x0_000000FF#36 ∧
    Answers (small blockX false) 0x21_00000063_00000000#72 0x0_00000000#36 := by decide +kernel
theorem test_wmul : Answers (small blockX false) 0x30_DB135345_02010103#72 0x0_8E4DA1BC#36 ∧
    Answers (small blockX false) 0x30_01020304_05060708#72 0x0_04082418#36 := by decide +kernel
theorem test_subbytes :
    Leaves (small blockX false) 0x40_00000000_00000000#72 0x637C777BF26B6FC53001672BFED7AB76 := by decide +kernel
theorem test_invsubbytes :
    Leaves (small blockX false) 0x41_00000000_00000000#72 0x52096AD53036A538BF40A39E81F3D7FB := by decide +kernel
theorem test_shiftrows :
    Leaves (small blockX false) 0x42_00000000_00000000#72 0x00050A0F04090E03080D02070C01060B := by decide +kernel
theorem test_invshiftrows :
    Leaves (small blockX false) 0x43_00000000_00000000#72 0x000D0A0704010E0B0805020F0C090603 := by decide +kernel
theorem test_mixcolumns :
    Leaves (small blockX false) 0x44_00000000_00000000#72 0x02070005060304010A0F080D0E0B0C09 := by decide +kernel
theorem test_invmixcolumns :
    Leaves (small blockX false) 0x45_00000000_00000000#72 0x0A0F080D0E0B0C090207000506030401 := by decide +kernel
theorem test_addroundkey :
    Leaves (small blockX true) 0x46_00000000_00000001#72 0xA0FBFC148C512AB62BAA33322661780A := by decide +kernel
theorem test_addroundkey_errors : Answers (small blockX false) 0x46_00000000_00000000#72 0x4_00000000#36 ∧
    Answers (small blockX false) 0x46_00000000_0000000B#72 0x2_00000000#36 := by decide +kernel
theorem test_lds :
    Leaves (small blockX false) 0x48_FFFFFFFF_00000003#72 0x000102030405060708090A0BFFFFFFFF := by decide +kernel
theorem test_rds : Answers (small blockX false) 0x49_00000000_00000002#72 0x0_08090A0B#36 ∧
    Answers (small blockX false) 0x49_00000000_0000003F#72 0x2_00000000#36 := by decide +kernel
theorem test_rotword : Answers (small blockX false) 0x50_09CF4F3C_00000000#72 0x0_CF4F3C09#36 := by decide +kernel
theorem test_subword : Answers (small blockX false) 0x51_CF4F3C09_00000000#72 0x0_8A84EB01#36 := by decide +kernel
theorem test_rcon : Answers (small blockX false) 0x52_000000FF_00000000#72 0x0_8D000000#36 ∧
    Answers (small blockX false) 0x52_00000000_00000000#72 0x3_00000000#36 := by decide +kernel
/-- The key word is written and the flag cleared; the other words stay (44 R107). -/
theorem test_ldkey : (match step ((small blockX true).present 0x54_11223344_00000002#72) with
    | .next t => t.K == #v[0x2B7E1516#32, 0x28AED2A6#32, 0x11223344#32, 0x09CF4F3C#32] && !t.KV
    | .fault _ => false
    | .refused _ => false) = true := by decide +kernel
/-- Words 4 and 43 of the known key's schedule (44 R108, R110). -/
theorem test_keyexpand : (match step ((small blockX false).present 0x55_00000000_00000000#72) with
    | .next t => t.W[4] == 0xA0FAFE17#32 && t.W[43] == 0xB6630CA6#32 && t.KV
    | .fault _ => false
    | .refused _ => false) = true := by decide +kernel
theorem test_rdw : Answers (small blockX true) 0x56_00000000_0000002B#72 0x0_B6630CA6#36 ∧
    Answers (small blockX false) 0x56_00000000_0000002C#72 0x2_00000000#36 := by decide +kernel
/-- The known key's schedule. -/
def knownW : Schedule := expandKey #v[0x2B7E1516#32, 0x28AED2A6#32, 0xABF71588#32, 0x09CF4F3C#32]
/-- 45 R122. -/
theorem test_encrypt : Leaves { small 0x3243F6A8885A308D313198A2E0370734 true with W := knownW }
    0x60_00000000_00000000#72 0x3925841D02DC09FBDC118597196A0B32 := by decide +kernel
/-- 45 R123. -/
theorem test_decrypt : Leaves { small 0x3925841D02DC09FBDC118597196A0B32 true with W := knownW }
    0x61_00000000_00000000#72 0x3243F6A8885A308D313198A2E0370734 := by decide +kernel
/-- 96 section 9: the machine under DESC. -/
theorem test_desc :
    (answer (stepUnder .desc ((small blockX false).present 0x30_01020304_05060708#72))).map Response.rspWord =
      some 0x0_18040824#36 ∧
    (match stepUnder .desc ((small blockX false).present 0x44_00000000_00000000#72) with
      | .next t => t.S == hexBlock 0x06030401020700050E0B0C090A0F080D
      | .fault _ => false
      | .refused _ => false) = true := by decide +kernel
/-- A reset gives no response and clears `KV` (70 R155). -/
theorem test_reset : (match step { small blockX true with inputs := [.resetDuring 0, .reset] } with
    | .next t => !t.KV && t.rsp == none && t.inputs == [.reset]
    | .fault _ => false
    | .refused _ => false) = true := by decide
/-- 30 R44, R45: a line of each kind. -/
theorem test_assembler :
    readLine "LDS 1, 0x04050607 ; column 1".toList = some [.lds 1 0x04050607#32] ∧
    readLine "GFPOW 0x02, 254".toList = some [.gfpow 0x02 0xFE] ∧
    (readLine "LDBLK 3243f6a8885a308d313198a2e0370734".toList).bind List.head? = some (.lds 0 0x3243F6A8#32) ∧
    readLine "LDS 0x04050607, 1".toList = none ∧ asmChars (.rdw 43) = "RDW 43".toList := by decide +kernel

/-! ### Witnesses: concrete values that meet the hypotheses of each statement, clause by clause, at the bounds -/

theorem witness_DecodeOfEncodeIsTheCommand : (Instr.lds 63 0xFFFFFFFF#32).wellFormed = true := by decide
theorem witness_EncodeOfDecodeIsTheWord : decode 0x46_00000000_0000003F#72 = .ok (.addroundkey 63) := by decide
theorem witness_DecoderAgreesWithMatchAndMask :
    decode 0x11_00000002_00000080#72 = .ok (.gfmul 0x02 0x80) ∧ ∃ r ∈ opcodeRows,
    (0x11_00000002_00000080#72 &&& r.mask = r.pattern) ∧ r.mnemonic = "GFMUL" := by decide
theorem witness_UnknownOpcodeAnswersIllegal :
    opField 0x62_00000000_00000000#72 ∉ opcodesOfTheSpec ∧ opField 0x00_00000000_00000000#72 ∉ opcodesOfTheSpec := by
  decide
theorem witness_MustBeZeroBitAnswersIllegal : ∃ r ∈ opcodeRows, opField 0x11_00000100_00000000#72 = opField r.pattern ∧
    0x11_00000100_00000000#72 &&& r.mask ≠ r.pattern := by decide
theorem witness_IllegalExactlyWhenNoRowIsSelected :
    (∀ r ∈ opcodeRows, 0x02_00000000_00000000#72 &&& r.mask ≠ r.pattern) ∧
    (answer (step ((small blockX false).present 0x02_00000000_00000000#72))).map (·.status) = some (.error .illegal) := by
  decide
theorem witness_StepRunsTheDecodedCommand : ((small 0 false).present 0x01_00000000_00000000#72).inputs =
    .command 0x01_00000000_00000000#72 :: [] ∧ decode 0x01_00000000_00000000#72 = .ok .rdstat ∧
    (small 0 false).inputs = [] := by decide
theorem witness_RunPerformsCommandsInOrder :
    (∀ i ∈ [Instr.lds 3 1, Instr.rds 3, Instr.encrypt], i.wellFormed = true) ∧ (small 0 true).inputs = [] := by decide
theorem witness_EveryWordIsAnsweredWithOneStatus :
    Answers (small 0 false) 0xFF_00000000_00000000#72 0x1_00000000#36 ∧
    Answers (small 0 false) 0x49_00000000_00000004#72 0x2_00000000#36 ∧
    Answers (small 0 false) 0x13_00000000_00000000#72 0x3_00000000#36 ∧
    Answers (small 0 false) 0x60_00000000_00000000#72 0x4_00000000#36 := by decide +kernel
theorem witness_StatusFollowsTheOrderOfChecks :
    (∀ i, decode 0xFF_00000000_00000000#72 ≠ .ok i) ∧ (small 0 false).KV = false ∧ 10 < 11 ∧ 43 < 44 ∧
    (1#32 : Word) ≠ 0 ∧ (0xFFFFFFFF#32 : Word) ≠ 0 := by
  refine ⟨fun i => ?_, by decide⟩
  show decode 0xFF_00000000_00000000#72 ≠ .ok i
  rw [show decode 0xFF_00000000_00000000#72 = .error (.unknownOpcode 0xFF#8) by decide]
  exact fun h => nomatch h
theorem witness_ErrorChangesNothing : ∃ t, step ((small 0 false).present 0x60_00000000_00000000#72) = .next t ∧
    t.rsp = some ⟨.error .noKey, 0⟩ := ⟨_, rfl, rfl⟩
theorem witness_IndexOutOfRangeAnswersIndexError : 3 < 4 ∧ 43 < 44 ∧ 10 < 11 ∧
    ∃ t, exec (.rds 4) (small 0 false) = .next t ∧ t.rsp = some ⟨.error .index, 0⟩ := ⟨by decide, by decide, by decide,
  _, rfl, rfl⟩
theorem witness_DomainErrorExactlyAtZero : ∃ t, exec (.rcon 0) (small 0 false) = .next t ∧
    t.rsp = some ⟨.error .domain, 0⟩ := ⟨_, rfl, rfl⟩
theorem witness_CommandsWithoutResultAnswerZero : Instr.shiftrows.hasNoResult = true ∧
    ∃ t, exec .shiftrows (small 0 false) = .next t ∧ t.rsp = some ⟨.ok, 0⟩ := ⟨rfl, _, rfl, rfl⟩
theorem witness_KeyValidFlagRules :
    goes (exec .keyexpand (small 0 false)) ∧ goes (exec (.ldkey 0 1) (small 0 true)) ∧
    goes (exec (.ldkey 3 1) (small 0 true)) ∧ goes (exec .rdstat (small 0 true)) ∧
    goes (exec (.ldkey 4 1) (small 0 true)) ∧ (∀ idx w, idx ≤ 3 → Instr.ldkey 4 1 ≠ .ldkey idx w) ∧
    (State.inputs { small 0 true with inputs := [.reset] }).head? = some .reset ∧
    goes (step { small 0 true with inputs := [.reset] }) ∧ (small 0 false).KV = false := by
  refine ⟨rfl, rfl, rfl, rfl, rfl, fun idx w h e => ?_, rfl, rfl, rfl⟩
  injection e with e
  omega
theorem witness_RdstatReturnsStatus : goes (exec .keyexpand (small 0 false)) ∧ goes (exec (.ldkey 3 1) (small 0 true)) ∧
    ∃ t, exec (.lds 4 0) (small 0 true) = .next t ∧ t.rsp = some ⟨.error .index, 0⟩ := ⟨rfl, rfl, _, rfl, rfl⟩
theorem witness_CommandsWriteOnlyTheirState : goes (exec .encrypt (small 0 true)) ∧ Instr.rdstat.writesS = false ∧
    (∀ idx w, Instr.encrypt ≠ .ldkey idx w) ∧ Instr.encrypt ≠ .keyexpand := by
  refine ⟨rfl, rfl, fun _ _ => ?_, ?_⟩ <;> exact Instr.noConfusion
theorem witness_CommandsReadOnlyTheirState : goes (exec (.rdw 43) (small 0 false)) ∧ (Instr.rdw 43).writesS = false ∧
    (∀ idx, Instr.rdw 43 ≠ .rds idx) ∧ (Instr.rdw 43).needsKey = true ∧ (small 0 false).KV = false ∧
    Instr.rdstat.needsKey = false := by
  refine ⟨rfl, rfl, fun _ => ?_, rfl, rfl, rfl⟩
  exact Instr.noConfusion
theorem witness_PureCommandsAndReadsChangeNothing : (Instr.rcon 0).isPure = true ∧ (Instr.rdw 43).isRead = true ∧
    QuietFor (.rdw 43) [.ldkey 4 1, .encrypt] (small 0 true) ∧ QuietFor .rdstat [.lds 3 1, .rdw 44] (small 0 true) ∧
    QuietFor (.rds 3) [.keyexpand, .lds 4 1] (small 0 true) := by
  refine ⟨rfl, rfl, ⟨.inr ⟨_, _, rfl, rfl⟩, fun _ _ => ⟨.inl rfl, fun _ _ => trivial⟩⟩,
    ⟨.inl rfl, fun _ _ => ⟨.inl rfl, fun _ _ => trivial⟩⟩, .inl rfl, fun t h => ⟨.inr ?_, fun _ _ => trivial⟩⟩
  exact ⟨{ t with rsp := some ⟨.error .index, 0⟩ }, .index, rfl, rfl⟩
theorem witness_ResetEvent : (State.inputs { small 0 true with inputs := [.resetDuring 0, .reset] } =
    .resetDuring 0 :: [.reset]) ∧ (∀ c, Input.resetDuring 0 ≠ .command c) ∧ (∀ c, Input.reset ≠ .command c) ∧
    goes (step { small 0 true with inputs := [.resetDuring 0] }) ∧
    goes (step { small 0 true with inputs := [.resetDuring 1] }) ∧
    (small 0 true).inputs = [] :=
  ⟨rfl, fun _ => Input.noConfusion, fun _ => Input.noConfusion, rfl, rfl, rfl⟩
theorem witness_StepKeepsScheduleValid : State.ScheduleValid { small 0 true with W := knownW } ∧
    goes (step (State.present { small 0 true with W := knownW } 0x54_00000000_00000000#72)) :=
  ⟨fun _ => rfl, rfl⟩
theorem witness_ReachableScheduleIsTheKeysExpansion : ∃ s, Reachable s ∧ s.KV = true :=
  ⟨_, .step _ _ (.reset [.command 0x55_00000000_00000000#72]) rfl, rfl⟩
theorem witness_KeyChangeInvalidatesUntilExpanded : (3 ≤ 3) ∧ Instr.keyexpand ∉ [Instr.encrypt, .rds 0] ∧
    goes (execAll [.ldkey 3 7, .encrypt, .rds 0] (small 0 true)) ∧ 10 ≤ 10 ∧ 43 ≤ 43 := by decide +kernel
theorem witness_FieldLaws : gfMul 0 5 = 0 ∧ (1 : Byte) ≠ 0 ∧ 0 < 1 ∧ 50 < 51 ∧ 254 < 255 := by decide
theorem witness_PowerRules : 1 ≤ 1 ∧ (0xFF : Byte) ≠ 0 := by decide
theorem witness_InverseIsTheUniqueSolution : (0x01 : Byte) ≠ 0 ∧ (0xFF : Byte) ≠ 0 := by decide
theorem witness_GfpowAnswersThePower : (1 : Byte) ≠ 0 ∧ (0xFF : Byte) ≠ 0 := by decide
theorem witness_GfinvAnswersTheInverse : (1 : Byte) ≠ 0 ∧ (0xFF : Byte) ≠ 0 := by decide
theorem witness_SboxAnswersTheSubstitution : (0 : Byte) = 0 ∧ (0x01 : Byte) ≠ 0 ∧ (0xFF : Byte) ≠ 0 := by decide
theorem witness_IsboxAnswersTheInverseSubstitution : invAffine 0x63 = 0 ∧ invAffine 0x00 ≠ 0 := by decide
theorem witness_EncodedFormats : (0x100#32 ≠ 0 ∨ (0#32 : Word) ≠ 0) ∧ aboveByte 0x100#32 ≠ 0 ∧
    aboveByte 0xFF#32 = 0 ∧ aboveIndex 0x40#32 ≠ 0 ∧ aboveIndex 0x3F#32 = 0 ∧ 63 < 64 := by decide
theorem witness_LdsLoadsOneColumn : 3 ≤ 3 ∧ 3 < 4 := by decide
theorem witness_RdsReadsOneColumn : (small blockX false).S = hexBlock 0x000102030405060708090A0B0C0D0E0F ∧ 3 < 4 := by decide
theorem witness_SubBytesActsByteByByte : (small blockX false).S = hexBlock 0x000102030405060708090A0B0C0D0E0F ∧
    goes (exec .subbytes (small blockX false)) ∧ goes (exec .invsubbytes (small blockX false)) ∧
    (small blockX false).S[0][0] = 0x00 ∧ (small 0x63 false).S[3][3] = 0x63 := by decide
theorem witness_ShiftRowsRotatesTheRows : (0 : Fin 4).val = ((1 : Fin 4).val + (3 : Fin 4).val) % 4 ∧
    (2 : Fin 4).val = ((1 : Fin 4).val + 4 - (3 : Fin 4).val) % 4 ∧
    (∀ c c' : Fin 4, (small 0x01020304010203040102030401020304 false).S[c] =
      (small 0x01020304010203040102030401020304 false).S[c']) ∧
    goes (exec .shiftrows (small blockX false)) ∧ goes (exec .invshiftrows (small blockX false)) := by decide
theorem witness_MixColumnsMultipliesEachColumn : (small 0xC6C6C6C6 false).S[3] = #v[0xC6, 0xC6, 0xC6, 0xC6] ∧
    goes (exec .mixcolumns (small blockX false)) ∧ goes (exec .invmixcolumns (small blockX false)) := by decide
theorem witness_AddroundkeyAddsTheRoundKey : State.ScheduleValid { small blockX true with W := knownW } ∧
    State.KV { small blockX true with W := knownW } = true ∧ goes (exec (.addroundkey 1) { small blockX true with W := knownW }) ∧
    State.S { small blockX true with W := knownW } = hexBlock 0x000102030405060708090A0B0C0D0E0F ∧
    10 < 11 ∧ 10 ≤ 10 ∧ (small blockX false).KV = false :=
  ⟨fun _ => rfl, rfl, rfl, rfl, by decide, by decide, rfl⟩
theorem witness_RconAnswersTheRoundConstant : (1 : Byte) ≠ 0 ∧ (0xFF : Byte) ≠ 0 ∧ 1 ≤ 1 := by decide
theorem witness_LdkeyLoadsOneWordAndClearsKv : 3 ≤ 3 ∧ 3 < 4 := by decide
theorem witness_KeyexpandWritesTheSchedule : 4 ≤ (4 : Fin 44).val ∧ 4 ≤ (43 : Fin 44).val := by decide
theorem witness_AnyRoundKeyDeterminesTheKey :
    roundKey knownW 10 = roundKey (expandKey #v[0x2B7E1516#32, 0x28AED2A6#32, 0xABF71588#32, 0x09CF4F3C#32]) 10 := rfl
theorem witness_RdwReadsOneScheduleWord : (small blockX true).KV = true ∧ 43 < 44 ∧ 43 ≤ 43 ∧
    (small blockX false).KV = false ∧ State.ScheduleValid { small blockX true with W := knownW } :=
  ⟨rfl, by decide, by decide, rfl, fun _ => rfl⟩
theorem witness_EncryptAndDecryptTransformS : State.KV { small 0x3243F6A8885A308D313198A2E0370734 true with W := knownW } = true ∧
    State.W { small 0x3243F6A8885A308D313198A2E0370734 true with W := knownW } = knownW ∧
    goes (exec .encrypt { small 0x3243F6A8885A308D313198A2E0370734 true with W := knownW }) ∧
    goes (exec .decrypt { small 0x3925841D02DC09FBDC118597196A0B32 true with W := knownW }) ∧
    (small 0 false).KV = false := ⟨rfl, rfl, rfl, rfl, rfl⟩
theorem witness_DecryptionUndoesEncryption : (small blockX true).KV = true := rfl
theorem witness_CipherEqualsFortyPrimitiveCommands : (small blockX true).KV = true := rfl
theorem witness_BlocksAreIndependent : ∃ s s' : State, s ≠ s' ∧ s.KV = true ∧ s'.KV = true ∧ s'.S = s.S ∧ s'.W = s.W ∧
    goes (exec .encrypt s) ∧ goes (exec .decrypt s) :=
  ⟨small blockX true, { small blockX true with K := #v[0, 0, 0, 0] }, by decide, rfl, rfl, rfl, rfl, rfl, rfl⟩

end Sys2Proof.Tests
end

/-! PROOFS. The decoder, one equation per opcode (30 R39), and what it answers for an opcode outside the list
(30 R40). -/

namespace Sys2Proof

/-! `delta` and not `simp [decode]`: the simplification lemmas of a match of 26 arms are slow to make. -/

section DecodeEquations

variable (a b : Word)

@[simp] theorem decode_rdstat : decode (cmdWord 0x01#8 a b) = formatN 0x01#8 a b .rdstat := by
  delta decode; rw [opField_cmdWord, aField_cmdWord, bField_cmdWord]; rfl
@[simp] theorem decode_gfadd : decode (cmdWord 0x10#8 a b) = formatB2 0x10#8 a b .gfadd := by
  delta decode; rw [opField_cmdWord, aField_cmdWord, bField_cmdWord]; rfl
@[simp] theorem decode_gfmul : decode (cmdWord 0x11#8 a b) = formatB2 0x11#8 a b .gfmul := by
  delta decode; rw [opField_cmdWord, aField_cmdWord, bField_cmdWord]; rfl
@[simp] theorem decode_gfpow : decode (cmdWord 0x12#8 a b) = formatB2 0x12#8 a b .gfpow := by
  delta decode; rw [opField_cmdWord, aField_cmdWord, bField_cmdWord]; rfl
@[simp] theorem decode_gfinv : decode (cmdWord 0x13#8 a b) = formatB1 0x13#8 a b .gfinv := by
  delta decode; rw [opField_cmdWord, aField_cmdWord, bField_cmdWord]; rfl
@[simp] theorem decode_sbox : decode (cmdWord 0x20#8 a b) = formatB1 0x20#8 a b .sbox := by
  delta decode; rw [opField_cmdWord, aField_cmdWord, bField_cmdWord]; rfl
@[simp] theorem decode_isbox : decode (cmdWord 0x21#8 a b) = formatB1 0x21#8 a b .isbox := by
  delta decode; rw [opField_cmdWord, aField_cmdWord, bField_cmdWord]; rfl
@[simp] theorem decode_wmul : decode (cmdWord 0x30#8 a b) = formatW2 a b .wmul := by
  delta decode; rw [opField_cmdWord, aField_cmdWord, bField_cmdWord]; rfl
@[simp] theorem decode_subbytes : decode (cmdWord 0x40#8 a b) = formatN 0x40#8 a b .subbytes := by
  delta decode; rw [opField_cmdWord, aField_cmdWord, bField_cmdWord]; rfl
@[simp] theorem decode_invsubbytes : decode (cmdWord 0x41#8 a b) = formatN 0x41#8 a b .invsubbytes := by
  delta decode; rw [opField_cmdWord, aField_cmdWord, bField_cmdWord]; rfl
@[simp] theorem decode_shiftrows : decode (cmdWord 0x42#8 a b) = formatN 0x42#8 a b .shiftrows := by
  delta decode; rw [opField_cmdWord, aField_cmdWord, bField_cmdWord]; rfl
@[simp] theorem decode_invshiftrows : decode (cmdWord 0x43#8 a b) = formatN 0x43#8 a b .invshiftrows := by
  delta decode; rw [opField_cmdWord, aField_cmdWord, bField_cmdWord]; rfl
@[simp] theorem decode_mixcolumns : decode (cmdWord 0x44#8 a b) = formatN 0x44#8 a b .mixcolumns := by
  delta decode; rw [opField_cmdWord, aField_cmdWord, bField_cmdWord]; rfl
@[simp] theorem decode_invmixcolumns : decode (cmdWord 0x45#8 a b) = formatN 0x45#8 a b .invmixcolumns := by
  delta decode; rw [opField_cmdWord, aField_cmdWord, bField_cmdWord]; rfl
@[simp] theorem decode_addroundkey : decode (cmdWord 0x46#8 a b) = formatI 0x46#8 a b .addroundkey := by
  delta decode; rw [opField_cmdWord, aField_cmdWord, bField_cmdWord]; rfl
@[simp] theorem decode_lds : decode (cmdWord 0x48#8 a b) = formatWI 0x48#8 a b .lds := by
  delta decode; rw [opField_cmdWord, aField_cmdWord, bField_cmdWord]; rfl
@[simp] theorem decode_rds : decode (cmdWord 0x49#8 a b) = formatI 0x49#8 a b .rds := by
  delta decode; rw [opField_cmdWord, aField_cmdWord, bField_cmdWord]; rfl
@[simp] theorem decode_rotword : decode (cmdWord 0x50#8 a b) = formatW1 0x50#8 a b .rotword := by
  delta decode; rw [opField_cmdWord, aField_cmdWord, bField_cmdWord]; rfl
@[simp] theorem decode_subword : decode (cmdWord 0x51#8 a b) = formatW1 0x51#8 a b .subword := by
  delta decode; rw [opField_cmdWord, aField_cmdWord, bField_cmdWord]; rfl
@[simp] theorem decode_rcon : decode (cmdWord 0x52#8 a b) = formatB1 0x52#8 a b .rcon := by
  delta decode; rw [opField_cmdWord, aField_cmdWord, bField_cmdWord]; rfl
@[simp] theorem decode_ldkey : decode (cmdWord 0x54#8 a b) = formatWI 0x54#8 a b .ldkey := by
  delta decode; rw [opField_cmdWord, aField_cmdWord, bField_cmdWord]; rfl
@[simp] theorem decode_keyexpand : decode (cmdWord 0x55#8 a b) = formatN 0x55#8 a b .keyexpand := by
  delta decode; rw [opField_cmdWord, aField_cmdWord, bField_cmdWord]; rfl
@[simp] theorem decode_rdw : decode (cmdWord 0x56#8 a b) = formatI 0x56#8 a b .rdw := by
  delta decode; rw [opField_cmdWord, aField_cmdWord, bField_cmdWord]; rfl
@[simp] theorem decode_encrypt : decode (cmdWord 0x60#8 a b) = formatN 0x60#8 a b .encrypt := by
  delta decode; rw [opField_cmdWord, aField_cmdWord, bField_cmdWord]; rfl
@[simp] theorem decode_decrypt : decode (cmdWord 0x61#8 a b) = formatN 0x61#8 a b .decrypt := by
  delta decode; rw [opField_cmdWord, aField_cmdWord, bField_cmdWord]; rfl

end DecodeEquations

/-- An opcode outside the list is the decoder's last arm (30 R40). -/
theorem decode_of_unlisted {c : CmdWord} (h : opField c ∉ opcodesOfTheSpec) :
    decode c = .error (.unknownOpcode (opField c)) := by
  unfold decode
  dsimp only
  split
  case h_26 => rfl
  all_goals
    rename_i hop
    exact absurd (by rw [hop]; decide) h

/-! The rows of the table by their opcodes (30 R39). -/

/-- The opcodes of the rows, in order, are the opcodes of the spec. -/
theorem opcodeRows_opcodes : opcodeRows.map (fun r => opField r.pattern) = opcodesOfTheSpec := by decide

/-- Every mask covers `op`. -/
theorem opField_mask : ∀ r ∈ opcodeRows, opField r.mask = 0xFF#8 := by decide

/-- The opcodes of two rows differ. -/
theorem row_eq_of_opField_eq {r r' : Row} (hr : r ∈ opcodeRows) (hr' : r' ∈ opcodeRows)
    (h : opField r.pattern = opField r'.pattern) : r = r' := by
  have hnodup : (opcodeRows.map fun r => opField r.pattern).Nodup := by rw [opcodeRows_opcodes]; decide
  exact List.inj_on_of_nodup_map hnodup hr hr' h

/-- A listed opcode is the opcode of a row. -/
theorem exists_row_of_listed {op : BitVec 8} (h : op ∈ opcodesOfTheSpec) :
    ∃ r ∈ opcodeRows, opField r.pattern = op := by
  rwa [← opcodeRows_opcodes, List.mem_map] at h

/-- A word that selects a row has its opcode. -/
theorem opField_of_selects {r : Row} {c : CmdWord} (hr : r ∈ opcodeRows) (h : c &&& r.mask = r.pattern) :
    opField c = opField r.pattern := by
  rw [← h, opField_and, opField_mask r hr]
  exact BitVec.and_allOnes.symm

/-! What the mask of each format asks of the fields (30 R37, R39). -/

theorem cmdWord_inj {op op' : BitVec 8} {a a' b b' : Word} :
    cmdWord op a b = cmdWord op' a' b' ↔ op = op' ∧ a = a' ∧ b = b' := by
  constructor
  · intro h
    exact ⟨by simpa using congrArg opField h, by simpa using congrArg aField h, by simpa using congrArg bField h⟩
  · rintro ⟨rfl, rfl, rfl⟩; rfl

/-- A word with the row's opcode selects it when no masked bit of either operand field is set. -/
theorem cmdWord_and_mask_eq_iff (op : BitVec 8) (a b ma mb : Word) :
    cmdWord op a b &&& cmdWord 0xFF#8 ma mb = cmdWord op 0 0 ↔ a &&& ma = 0 ∧ b &&& mb = 0 := by
  rw [cmdWord_and, cmdWord_inj]
  exact and_iff_right BitVec.and_allOnes

theorem and_full_eq_zero_iff (v : Word) : v &&& 0xFFFFFFFF#32 = 0 ↔ v = 0 := by
  rw [show v &&& 0xFFFFFFFF#32 = v from BitVec.and_allOnes]

theorem and_aboveByte_eq_zero_iff (v : Word) : v &&& 0xFFFFFF00#32 = 0 ↔ aboveByte v = 0 := by
  constructor
  · intro h
    have h' := congrArg aboveByte h
    rw [aboveByte, BitVec.extractLsb'_and] at h'
    exact BitVec.and_allOnes.symm.trans h'
  · intro h
    rw [← byteOperand_lowByte h, byteOperand_and_above]

theorem and_aboveIndex_eq_zero_iff (v : Word) : v &&& 0xFFFFFFC0#32 = 0 ↔ aboveIndex v = 0 := by
  constructor
  · intro h
    have h' := congrArg aboveIndex h
    rw [aboveIndex, BitVec.extractLsb'_and] at h'
    exact BitVec.and_allOnes.symm.trans h'
  · intro h
    rw [← indexOperand_lowIndex h, indexOperand_and_above]

/-! The decoder and a row of the table, on a word with the row's opcode (30 R39, R41). -/

/-- The decoder treats `c` as the row says: it reads the row's command if `c` selects the row, and finds a
must-be-zero bit set if not. -/
def Row.AgreesOn (r : Row) (c : CmdWord) : Prop :=
  (c &&& r.mask = r.pattern → ∃ i, decode c = .ok i ∧ i.mnemonic = r.mnemonic) ∧
  (c &&& r.mask ≠ r.pattern → ∃ op, decode c = .error (.mustBeZero op))

namespace Row.AgreesOn

/-- A format whose check `p` is the row's selection agrees with the row. -/
theorem of_check {r : Row} {c : CmdWord} {op : BitVec 8} {i : Instr} {p : Prop} [Decidable p]
    (hsel : c &&& r.mask = r.pattern ↔ p) (hm : i.mnemonic = r.mnemonic)
    (hd : decode c = if p then .ok i else .error (.mustBeZero op)) : r.AgreesOn c := by
  constructor
  · intro h
    exact ⟨i, by rw [hd, if_pos (hsel.mp h)], hm⟩
  · intro h
    exact ⟨op, by rw [hd, if_neg (mt hsel.mpr h)]⟩

variable {op : BitVec 8} {a b : Word} {m : String}

theorem of_formatN {i : Instr} (hd : decode (cmdWord op a b) = formatN op a b i) :
    Row.AgreesOn ⟨i.mnemonic, cmdWord op 0 0, maskN⟩ (cmdWord op a b) := by
  refine of_check ?_ rfl hd
  rw [maskN_eq, cmdWord_and_mask_eq_iff, and_full_eq_zero_iff, and_full_eq_zero_iff]

theorem of_formatB1 {f : Byte → Instr} (hm : ∀ x, (f x).mnemonic = m)
    (hd : decode (cmdWord op a b) = formatB1 op a b f) :
    Row.AgreesOn ⟨m, cmdWord op 0 0, maskB1⟩ (cmdWord op a b) := by
  refine of_check ?_ (hm _) hd
  rw [maskB1_eq, cmdWord_and_mask_eq_iff, and_aboveByte_eq_zero_iff, and_full_eq_zero_iff]

theorem of_formatB2 {f : Byte → Byte → Instr} (hm : ∀ x y, (f x y).mnemonic = m)
    (hd : decode (cmdWord op a b) = formatB2 op a b f) :
    Row.AgreesOn ⟨m, cmdWord op 0 0, maskB2⟩ (cmdWord op a b) := by
  refine of_check ?_ (hm _ _) hd
  rw [maskB2_eq, cmdWord_and_mask_eq_iff, and_aboveByte_eq_zero_iff, and_aboveByte_eq_zero_iff]

theorem of_formatW1 {f : Word → Instr} (hm : ∀ w, (f w).mnemonic = m)
    (hd : decode (cmdWord op a b) = formatW1 op a b f) :
    Row.AgreesOn ⟨m, cmdWord op 0 0, maskW1⟩ (cmdWord op a b) := by
  refine of_check ?_ (hm _) hd
  rw [maskW1_eq, cmdWord_and_mask_eq_iff, and_full_eq_zero_iff]
  simp

/-- Format W2 has no must-be-zero bit: its row is selected by every word with its opcode. -/
theorem of_formatW2 {f : Word → Word → Instr} (hm : ∀ w v, (f w v).mnemonic = m)
    (hd : decode (cmdWord op a b) = formatW2 a b f) :
    Row.AgreesOn ⟨m, cmdWord op 0 0, maskW2⟩ (cmdWord op a b) := by
  refine of_check (p := True) (op := op) ?_ (hm a b) (hd.trans (if_pos trivial).symm)
  rw [maskW2_eq, cmdWord_and_mask_eq_iff]
  simp

theorem of_formatI {f : Nat → Instr} (hm : ∀ idx, (f idx).mnemonic = m)
    (hd : decode (cmdWord op a b) = formatI op a b f) :
    Row.AgreesOn ⟨m, cmdWord op 0 0, maskI⟩ (cmdWord op a b) := by
  refine of_check ?_ (hm _) hd
  rw [maskI_eq, cmdWord_and_mask_eq_iff, and_full_eq_zero_iff, and_aboveIndex_eq_zero_iff]

theorem of_formatWI {f : Nat → Word → Instr} (hm : ∀ idx w, (f idx w).mnemonic = m)
    (hd : decode (cmdWord op a b) = formatWI op a b f) :
    Row.AgreesOn ⟨m, cmdWord op 0 0, maskWI⟩ (cmdWord op a b) := by
  refine of_check ?_ (hm _ _) hd
  rw [maskWI_eq, cmdWord_and_mask_eq_iff, and_aboveIndex_eq_zero_iff]
  simp

/-- The eight arithmetic rows. -/
theorem of_arithmeticRow {r : Row} (hr : r ∈ arithmeticRows) (a b : Word) :
    r.AgreesOn (cmdWord (opField r.pattern) a b) := by
  simp only [arithmeticRows, List.mem_cons, List.not_mem_nil, or_false] at hr
  rcases hr with rfl | rfl | rfl | rfl | rfl | rfl | rfl | rfl
  · exact of_formatN (decode_rdstat a b)
  · exact of_formatB2 (fun _ _ => rfl) (decode_gfadd a b)
  · exact of_formatB2 (fun _ _ => rfl) (decode_gfmul a b)
  · exact of_formatB2 (fun _ _ => rfl) (decode_gfpow a b)
  · exact of_formatB1 (fun _ => rfl) (decode_gfinv a b)
  · exact of_formatB1 (fun _ => rfl) (decode_sbox a b)
  · exact of_formatB1 (fun _ => rfl) (decode_isbox a b)
  · exact of_formatW2 (fun _ _ => rfl) (decode_wmul a b)

/-- The nine state rows. -/
theorem of_stateRow {r : Row} (hr : r ∈ stateRows) (a b : Word) :
    r.AgreesOn (cmdWord (opField r.pattern) a b) := by
  simp only [stateRows, List.mem_cons, List.not_mem_nil, or_false] at hr
  rcases hr with rfl | rfl | rfl | rfl | rfl | rfl | rfl | rfl | rfl
  · exact of_formatN (decode_subbytes a b)
  · exact of_formatN (decode_invsubbytes a b)
  · exact of_formatN (decode_shiftrows a b)
  · exact of_formatN (decode_invshiftrows a b)
  · exact of_formatN (decode_mixcolumns a b)
  · exact of_formatN (decode_invmixcolumns a b)
  · exact of_formatI (fun _ => rfl) (decode_addroundkey a b)
  · exact of_formatWI (fun _ _ => rfl) (decode_lds a b)
  · exact of_formatI (fun _ => rfl) (decode_rds a b)

/-- The eight rows of the key schedule and the cipher. -/
theorem of_keyRow {r : Row} (hr : r ∈ keyRows) (a b : Word) :
    r.AgreesOn (cmdWord (opField r.pattern) a b) := by
  simp only [keyRows, List.mem_cons, List.not_mem_nil, or_false] at hr
  rcases hr with rfl | rfl | rfl | rfl | rfl | rfl | rfl | rfl
  · exact of_formatW1 (fun _ => rfl) (decode_rotword a b)
  · exact of_formatW1 (fun _ => rfl) (decode_subword a b)
  · exact of_formatB1 (fun _ => rfl) (decode_rcon a b)
  · exact of_formatWI (fun _ _ => rfl) (decode_ldkey a b)
  · exact of_formatN (decode_keyexpand a b)
  · exact of_formatI (fun _ => rfl) (decode_rdw a b)
  · exact of_formatN (decode_encrypt a b)
  · exact of_formatN (decode_decrypt a b)

/-- Every row of the table agrees with the decoder on every word with its opcode. -/
theorem of_opField_eq {r : Row} {c : CmdWord} (hr : r ∈ opcodeRows) (h : opField c = opField r.pattern) :
    r.AgreesOn c := by
  rw [← cmdWord_fields c, h]
  rcases List.mem_append.mp hr with hr | hr
  · rcases List.mem_append.mp hr with hr | hr
    · exact of_arithmeticRow hr _ _
    · exact of_stateRow hr _ _
  · exact of_keyRow hr _ _

end Row.AgreesOn

/-- A word decodes to a command only with a listed opcode. -/
theorem opField_mem_of_decode_ok {c : CmdWord} {i : Instr} (h : decode c = .ok i) : opField c ∈ opcodesOfTheSpec := by
  by_contra hop
  rw [decode_of_unlisted hop] at h
  cases h

/-- A word that decodes selects the row of its command. -/
theorem selects_of_decode_ok {c : CmdWord} {i : Instr} (h : decode c = .ok i) :
    ∃ r ∈ opcodeRows, c &&& r.mask = r.pattern ∧ r.mnemonic = i.mnemonic := by
  obtain ⟨r, hr, hop⟩ := exists_row_of_listed (opField_mem_of_decode_ok h)
  obtain ⟨hok, herr⟩ := Row.AgreesOn.of_opField_eq hr hop.symm
  have hsel : c &&& r.mask = r.pattern := by
    by_contra hne
    obtain ⟨op, he⟩ := herr hne
    rw [h] at he
    cases he
  obtain ⟨j, hj, hm⟩ := hok hsel
  obtain rfl : i = j := Except.ok.inj (h.symm.trans hj)
  exact ⟨r, hr, hsel, hm.symm⟩

/-- A word that selects a row decodes to the command of that row. -/
theorem decode_ok_of_selects {r : Row} {c : CmdWord} (hr : r ∈ opcodeRows) (h : c &&& r.mask = r.pattern) :
    ∃ i, decode c = .ok i ∧ i.mnemonic = r.mnemonic :=
  (Row.AgreesOn.of_opField_eq hr (opField_of_selects hr h)).1 h

/-- A word selects at most one row. -/
theorem row_eq_of_selects {r r' : Row} {c : CmdWord} (hr : r ∈ opcodeRows) (hr' : r' ∈ opcodeRows)
    (h : c &&& r.mask = r.pattern) (h' : c &&& r'.mask = r'.pattern) : r = r' :=
  row_eq_of_opField_eq hr hr' ((opField_of_selects hr h).symm.trans (opField_of_selects hr' h'))

/-- Settles O3: on a word with a row's opcode the check of the format is the selection of the row, and the opcodes of
the rows differ. -/
theorem decoderAgreesWithMatchAndMask : Obligations.DecoderAgreesWithMatchAndMask := by
  unfold Obligations.DecoderAgreesWithMatchAndMask
  refine ⟨?_, ?_, ?_⟩
  · intro c i h
    exact selects_of_decode_ok h
  · intro c r hr h
    exact decode_ok_of_selects hr h
  · intro c r hr r' hr' h h'
    exact row_eq_of_selects hr hr' h h'

end Sys2Proof

namespace Sys2Proof.Machine

/-- A presented word that decodes is performed as its command. -/
theorem step_present_ok {s : State} {c : CmdWord} {i : Instr} (h : decode c = .ok i) :
    step (s.present c) = exec i s := by
  simp only [step, State.stepWith, accept?_present, h]

/-- LDS at an index above 3 answers `E_INDEX` and changes nothing else (60 R138). -/
theorem exec_lds_of_le {idx : Nat} (h : 4 ≤ idx) (w : Word) (s : State) :
    exec (.lds idx w) s = .next { s with rsp := some ⟨.error .index, 0⟩ } :=
  withIndex_of_le h fun c => (s.writeColumn c w).ok 0

/-- A word with a row's opcode that does not select the row is answered `E_ILLEGAL` (30 R41). -/
theorem answersIllegal_of_mustBeZero {r : Row} {c : CmdWord} (s : State) (hr : r ∈ opcodeRows)
    (hop : opField c = opField r.pattern) (h : c &&& r.mask ≠ r.pattern) : AnswersIllegal s c := by
  obtain ⟨op, he⟩ := (Row.AgreesOn.of_opField_eq hr hop).2 h
  exact step_present_error he

/-- Settles O5: an unlisted opcode falls through to the decoder's last arm. -/
theorem unknownOpcodeAnswersIllegal : Obligations.UnknownOpcodeAnswersIllegal := by
  unfold Obligations.UnknownOpcodeAnswersIllegal
  refine ⟨?_, ?_, ?_, ?_⟩
  · intro s c h
    exact step_present_error (decode_of_unlisted h)
  · decide +kernel
  · decide
  · decide

/-- Settles O6: a row that is not selected decodes to an error; the examples are the checks of formats B2 and WI. -/
theorem mustBeZeroBitAnswersIllegal : Obligations.MustBeZeroBitAnswersIllegal := by
  unfold Obligations.MustBeZeroBitAnswersIllegal
  refine ⟨?_, ?_, ?_, ?_⟩
  · intro s c r hr hop h
    exact answersIllegal_of_mustBeZero s hr hop h
  · intro s b
    have hd : decode (cmdWord 0x11#8 0x00000157#32 b) = .error (.mustBeZero 0x11#8) := by
      rw [decode_gfmul, formatB2, if_neg (by rintro ⟨ha, -⟩; revert ha; decide)]
    exact step_present_error hd
  · intro s a
    have hd : decode (cmdWord 0x48#8 a 0x00000040#32) = .error (.mustBeZero 0x48#8) := by
      rw [decode_lds, formatWI, if_neg (by decide)]
    exact step_present_error hd
  · intro s a
    have hd : decode (cmdWord 0x48#8 a 0x00000004#32) = .ok (.lds 4 a) := by
      rw [decode_lds]; rfl
    exact (step_present_ok hd).trans (exec_lds_of_le (by decide) a s)

end Sys2Proof.Machine

/-! PROOFS. What LDS, RDS and LDKEY do at an index in range, and the three pseudo-instructions that
move a block or a key (30 R45 to R47). -/

namespace Sys2Proof.Machine

theorem exec_lds_of_lt {idx : Nat} (h : idx < 4) (w : Word) (s : State) :
    exec (.lds idx w) s = .next { s with S := s.S.set idx (columnOfWord w), rsp := okZero } :=
  withIndex_of_lt h fun c => (s.writeColumn c w).ok 0

theorem exec_rds_of_lt {idx : Nat} (h : idx < 4) (s : State) :
    exec (.rds idx) s = .next { s with rsp := some ⟨.ok, wordOfColumn s.S[idx]⟩ } :=
  withIndex_of_lt h fun c => s.ok (s.readColumn c)

theorem exec_ldkey_of_lt {idx : Nat} (h : idx < 4) (w : Word) (s : State) :
    exec (.ldkey idx w) s = .next { s with K := s.K.set idx w, KV := false, rsp := okZero } :=
  withIndex_of_lt h fun j => (s.writeKeyWord j w).clearKV.ok 0

/-! A list that begins with one of these commands goes on from the state the command leaves. -/

theorem execAll_nil (s : State) : execAll [] s = .next s := rfl

theorem execAll_cons_of_next {i : Instr} {s t : State} (h : exec i s = .next t) (is : List Instr) :
    execAll (i :: is) s = execAll is t := by rw [execAll, h]

theorem execAll_lds_cons {idx : Nat} (h : idx < 4) (w : Word) (is : List Instr) (s : State) :
    execAll (.lds idx w :: is) s = execAll is { s with S := s.S.set idx (columnOfWord w), rsp := okZero } :=
  execAll_cons_of_next (exec_lds_of_lt h w s) is

theorem execAll_rds_cons {idx : Nat} (h : idx < 4) (is : List Instr) (s : State) :
    execAll (.rds idx :: is) s = execAll is { s with rsp := some ⟨.ok, wordOfColumn s.S[idx]⟩ } :=
  execAll_cons_of_next (exec_rds_of_lt h s) is

theorem execAll_ldkey_cons {idx : Nat} (h : idx < 4) (w : Word) (is : List Instr) (s : State) :
    execAll (.ldkey idx w :: is) s = execAll is { s with K := s.K.set idx w, KV := false, rsp := okZero } :=
  execAll_cons_of_next (exec_ldkey_of_lt h w s) is

theorem responses_nil (s : State) : responses [] s = [] := rfl

theorem responses_cons_of_next {i : Instr} {s t : State} (h : exec i s = .next t) (is : List Instr) :
    responses (i :: is) s = t.rsp :: responses is t := by rw [responses, h]

theorem responses_rds_cons {idx : Nat} (h : idx < 4) (is : List Instr) (s : State) :
    responses (.rds idx :: is) s = some ⟨.ok, wordOfColumn s.S[idx]⟩ ::
      responses is { s with rsp := some ⟨.ok, wordOfColumn s.S[idx]⟩ } :=
  responses_cons_of_next (exec_rds_of_lt h s) is

/-- Byte `r` of column `c` of the State of sixteen bytes is byte `4c + r` (20 R23). -/
theorem blockOfBytes_getElem (B : Vector Byte 16) (c r : Fin 4) :
    (blockOfBytes B)[c][r] = B[4 * c.val + r.val] := blockOf_get _ c r

/-- Byte `k` of word `j` of the key of sixteen bytes is byte `4j + k` (20 R24). -/
theorem byte_keyOfBytes (B : Vector Byte 16) (j k : Fin 4) :
    byte (keyOfBytes B)[j] k = B[4 * j.val + k.val] := by
  simp only [keyOfBytes, Fin.getElem_fin, Vector.getElem_ofFn]
  match k with
  | 0 => exact byte_word_0 ..
  | 1 => exact byte_word_1 ..
  | 2 => exact byte_word_2 ..
  | 3 => exact byte_word_3 ..

/-- Block byte `4c + r` of four results is byte `r` of result `c` (30 R46). -/
theorem bytesOfResults_getElem (v : Vector Word 4) (c r : Fin 4) :
    (bytesOfResults v)[4 * c.val + r.val] = byte v[c] r := by
  simp [bytesOfResults, show (4 * c.val + r.val) / 4 = c.val by omega, Nat.mod_eq_of_lt r.isLt]

/-- Writing the four entries of a vector one after another leaves the vector of the four. -/
theorem set_all_four {α : Type} (v : Vector α 4) (x0 x1 x2 x3 : α) :
    (((v.set 0 x0).set 1 x1).set 2 x2).set 3 x3 = #v[x0, x1, x2, x3] := by
  ext i hi
  interval_cases i <;> simp

/-- The column of a Word given by its bytes. -/
@[simp] theorem columnOfWord_word (b0 b1 b2 b3 : Byte) : columnOfWord (word b0 b1 b2 b3) = #v[b0, b1, b2, b3] := by
  calc columnOfWord (word b0 b1 b2 b3)
      = #v[byte (word b0 b1 b2 b3) 0, byte (word b0 b1 b2 b3) 1, byte (word b0 b1 b2 b3) 2,
          byte (word b0 b1 b2 b3) 3] := rfl
    _ = #v[b0, b1, b2, b3] := by rw [byte_word_0, byte_word_1, byte_word_2, byte_word_3]

/-- LDBLK loads the State of the block's bytes and changes nothing else (30 R45). -/
theorem execAll_ldblk (h : Vector Byte 16) (s : State) :
    execAll (ldblk h) s = .next { s with S := blockOfBytes h, rsp := okZero } := by
  simp (disch := decide) only [ldblk, execAll_lds_cons, execAll_nil, set_all_four, columnOfWord_word]
  rfl

/-- LDKEY128 loads the key of the bytes, clears `KV` and changes nothing else (30 R47). -/
theorem execAll_ldkey128 (h : Vector Byte 16) (s : State) :
    execAll (ldkey128 h) s = .next { s with K := keyOfBytes h, KV := false, rsp := okZero } := by
  simp (disch := decide) only [ldkey128, execAll_ldkey_cons, execAll_nil, set_all_four]
  rfl

/-- RDBLK changes the response alone (30 R46). -/
theorem execAll_rdblk (s : State) : execAll rdblk s = .next { s with rsp := some ⟨.ok, wordOfColumn s.S[3]⟩ } := by
  simp (disch := decide) only [rdblk, execAll_rds_cons, execAll_nil]

/-- RDBLK answers the four columns in order (30 R46). -/
theorem responses_rdblk (s : State) :
    responses rdblk s = [some ⟨.ok, wordOfColumn s.S[0]⟩, some ⟨.ok, wordOfColumn s.S[1]⟩,
      some ⟨.ok, wordOfColumn s.S[2]⟩, some ⟨.ok, wordOfColumn s.S[3]⟩] := by
  simp (disch := decide) only [rdblk, responses_rds_cons, responses_nil]

/-- The block that the Words of a State's columns are is the State, byte for byte (20 R23). -/
theorem bytesOfResults_columns_getElem (T : Block) (c r : Fin 4) :
    (bytesOfResults #v[wordOfColumn T[0], wordOfColumn T[1], wordOfColumn T[2], wordOfColumn T[3]])[4 * c.val + r.val] =
      T[c][r] := by
  have hcols : #v[wordOfColumn T[0], wordOfColumn T[1], wordOfColumn T[2], wordOfColumn T[3]] = T.map wordOfColumn := by
    ext i hi
    interval_cases i <;> simp
  rw [bytesOfResults_getElem, hcols, Fin.getElem_fin, Vector.getElem_map, byte_wordOfColumn]
  rfl

/-- Settles O59: LDBLK and LDKEY128 load the State and the key of the bytes, and RDBLK answers the columns. -/
theorem blockAndKeyByteOrder : Obligations.BlockAndKeyByteOrder := by
  unfold Obligations.BlockAndKeyByteOrder
  refine ⟨?_, ?_, ?_⟩
  · intro s h
    exact ⟨_, execAll_ldblk h s, rfl, blockOfBytes_getElem h⟩
  · intro s
    exact ⟨_, _, _, _, responses_rdblk s, bytesOfResults_columns_getElem s.S, _, execAll_rdblk s, rfl⟩
  · intro s h
    exact ⟨_, execAll_ldkey128 h s, rfl, byte_keyOfBytes h⟩

end Sys2Proof.Machine

/-! PROOFS. Maps between bit vectors that commute with exclusive or. Two of them are equal when they agree on the
single bits, so a law of field products needs checking on the eight powers of x only. -/

namespace Sys2Proof

/-- A map of bit vectors that commutes with exclusive or: a linear map over GF(2). -/
def XorLinear {v w : Nat} (f : BitVec v → BitVec w) : Prop := ∀ a b, f (a ^^^ b) = f a ^^^ f b

namespace XorLinear

variable {u v w : Nat}

theorem map_zero {f : BitVec v → BitVec w} (hf : XorLinear f) : f 0 = 0 := by
  have h := hf 0 0
  rwa [BitVec.xor_self, BitVec.xor_self] at h

theorem comp {g : BitVec v → BitVec w} {f : BitVec u → BitVec v} (hg : XorLinear g) (hf : XorLinear f) :
    XorLinear fun a => g (f a) := fun a b => (congrArg g (hf a b)).trans (hg _ _)

theorem iterate {f : BitVec v → BitVec v} (hf : XorLinear f) (n : Nat) : XorLinear f^[n] := by
  induction n with
  | zero => exact fun _ _ => rfl
  | succ n ih => exact ih.comp hf

end XorLinear

/-- What holds of the single bits, and of `a ^^^ b` when it holds of `a` and `b`, holds of every bit vector: by
induction on a bound of the bits that are set. -/
theorem bitVec_xor_induction {w : Nat} {P : BitVec w → Prop} (hzero : P 0)
    (hxor : ∀ a b, P a → P b → P (a ^^^ b)) (hbit : ∀ i : Fin w, P (BitVec.twoPow w i)) (a : BitVec w) : P a := by
  have below : ∀ n ≤ w, ∀ a : BitVec w, (∀ i, n ≤ i → a.getLsbD i = false) → P a := by
    intro n
    induction n with
    | zero =>
      intro _ a ha
      obtain rfl : a = 0 := BitVec.eq_of_getLsbD_eq fun i _ => by simpa using ha i (Nat.zero_le i)
      exact hzero
    | succ n ih =>
      intro hn a ha
      cases hb : a.getLsbD n with
      | false =>
        refine ih (by omega) a fun i hi => ?_
        rcases Nat.eq_or_lt_of_le hi with rfl | hi
        · exact hb
        · exact ha i hi
      | true =>
        have hrest : P (a ^^^ BitVec.twoPow w n) := by
          refine ih (by omega) _ fun i hi => ?_
          rcases Nat.eq_or_lt_of_le hi with rfl | hlt
          · simp [hb]; omega
          · simp [ha i hlt]; omega
        have hx := hxor _ _ hrest (hbit ⟨n, hn⟩)
        rwa [BitVec.xor_assoc, BitVec.xor_self, BitVec.xor_zero] at hx
  exact below w le_rfl a fun i hi => BitVec.getLsbD_of_ge a i hi

namespace XorLinear

variable {u v w : Nat}

/-- Two linear maps that agree on the single bits are equal. -/
theorem ext {f g : BitVec v → BitVec w} (hf : XorLinear f) (hg : XorLinear g)
    (h : ∀ i : Fin v, f (BitVec.twoPow v i) = g (BitVec.twoPow v i)) (a : BitVec v) : f a = g a := by
  induction a using bitVec_xor_induction with
  | hzero => rw [hf.map_zero, hg.map_zero]
  | hxor a b ha hb => rw [hf, hg, ha, hb]
  | hbit i => exact h i

/-- Two bilinear maps that agree on the pairs of single bits are equal. -/
theorem ext₂ {f g : BitVec u → BitVec v → BitVec w}
    (hf : ∀ b, XorLinear fun a => f a b) (hf' : ∀ a, XorLinear (f a))
    (hg : ∀ b, XorLinear fun a => g a b) (hg' : ∀ a, XorLinear (g a))
    (h : ∀ (i : Fin u) (j : Fin v),
      f (BitVec.twoPow u i) (BitVec.twoPow v j) = g (BitVec.twoPow u i) (BitVec.twoPow v j))
    (a : BitVec u) (b : BitVec v) : f a b = g a b :=
  ext (hf b) (hg b) (fun i => ext (hf' _) (hg' _) (h i) b) a

end XorLinear

/-! A term that a condition adds: linear in the condition, and linear in the term. -/

section Conditional

variable {w : Nat} (c c' : Bool) (p q t t' : BitVec w)

theorem ite_xor_add_condition :
    (if (c ^^ c') = true then p ^^^ q ^^^ t else p ^^^ q) =
      (if c = true then p ^^^ t else p) ^^^ (if c' = true then q ^^^ t else q) := by
  match c, c' with
  | false, false => rfl
  | true, false => exact (by ac_rfl : p ^^^ q ^^^ t = p ^^^ t ^^^ q)
  | false, true => exact BitVec.xor_assoc p q t
  | true, true =>
    calc p ^^^ q = p ^^^ q ^^^ (t ^^^ t) := by rw [BitVec.xor_self, BitVec.xor_zero]
      _ = p ^^^ t ^^^ (q ^^^ t) := by ac_rfl

theorem ite_xor_add_term :
    (if c = true then p ^^^ q ^^^ (t ^^^ t') else p ^^^ q) =
      (if c = true then p ^^^ t else p) ^^^ (if c = true then q ^^^ t' else q) := by
  match c with
  | false => rfl
  | true => exact (by ac_rfl : p ^^^ q ^^^ (t ^^^ t') = p ^^^ t ^^^ (q ^^^ t'))

end Conditional

/-- A fold adds up over exclusive or when each of its steps does. -/
theorem foldl_xor {α : Type} {w : Nat} {f g h : BitVec w → α → BitVec w}
    (hstep : ∀ p q i, h (p ^^^ q) i = f p i ^^^ g q i) (l : List α) (p q : BitVec w) :
    l.foldl h (p ^^^ q) = l.foldl f p ^^^ l.foldl g q := by
  induction l generalizing p q with
  | nil => rfl
  | cons i l ih => rw [List.foldl_cons, List.foldl_cons, List.foldl_cons, hstep, ih]

end Sys2Proof

/-! PROOFS. The field product is linear in each operand, so it is the reduced carry-less product, commutative and
associative (40 R52, R59). -/

namespace Sys2Proof.Machine

/-- Clearing the upper bits is linear: a step adds a fixed polynomial when one bit is set (40 R52). -/
theorem reducePoly_xorLinear : XorLinear reducePoly := by
  intro p q
  refine foldl_xor (fun p q d => ?_) _ p q
  rw [BitVec.getLsbD_xor]
  exact ite_xor_add_condition ..

theorem carryless_xorLinear_left (b : Byte) : XorLinear fun a => carryless a b := by
  intro a a'
  refine foldl_xor (fun p q i => ?_) _ 0 0
  rw [BitVec.setWidth_xor, BitVec.shiftLeft_xor_distrib]
  exact ite_xor_add_term ..

theorem carryless_xorLinear_right (a : Byte) : XorLinear (carryless a) := by
  intro b b'
  refine foldl_xor (fun p q i => ?_) _ 0 0
  rw [BitVec.getLsbD_xor]
  exact ite_xor_add_condition ..

theorem setWidth_xorLinear {v : Nat} (w : Nat) : XorLinear (BitVec.setWidth w : BitVec v → BitVec w) :=
  fun _ _ => BitVec.setWidth_xor

theorem xtime_xorLinear : XorLinear xtime := by
  intro t t'
  rw [xtime, BitVec.getLsbD_xor, BitVec.shiftLeft_xor_distrib]
  exact ite_xor_add_condition ..

theorem gfMulLoop_xor_left (n : Nat) (t t' u p p' : Byte) :
    gfMulLoop n (t ^^^ t') u (p ^^^ p') = gfMulLoop n t u p ^^^ gfMulLoop n t' u p' := by
  induction n generalizing t t' u p p' with
  | zero => rfl
  | succ n ih => rw [gfMulLoop, xtime_xorLinear, ite_xor_add_term, ih]; rfl

theorem gfMulLoop_xor_right (n : Nat) (t u u' p p' : Byte) :
    gfMulLoop n t (u ^^^ u') (p ^^^ p') = gfMulLoop n t u p ^^^ gfMulLoop n t u' p' := by
  induction n generalizing t u u' p p' with
  | zero => rfl
  | succ n ih => rw [gfMulLoop, BitVec.getLsbD_xor, BitVec.ushiftRight_xor_distrib, ite_xor_add_condition, ih]; rfl

theorem xor_gfMul (a a' b : Byte) : gfMul (a ^^^ a') b = gfMul a b ^^^ gfMul a' b := gfMulLoop_xor_left 8 a a' b 0 0

theorem gfMul_xor (a b b' : Byte) : gfMul a (b ^^^ b') = gfMul a b ^^^ gfMul a b' := gfMulLoop_xor_right 8 a b b' 0 0

theorem gfMul_xorLinear_left (b : Byte) : XorLinear fun a => gfMul a b := fun a a' => xor_gfMul a a' b

theorem gfMul_xorLinear_right (a : Byte) : XorLinear (gfMul a) := gfMul_xor a

/-- Settles O27: both sides are linear in each operand and agree on the 64 pairs of powers of x. -/
theorem productIsTheReducedCarrylessProduct : Obligations.ProductIsTheReducedCarrylessProduct := by
  unfold Obligations.ProductIsTheReducedCarrylessProduct
  have hred : XorLinear fun p => (reducePoly p).setWidth 8 := (setWidth_xorLinear 8).comp reducePoly_xorLinear
  refine XorLinear.ext₂ gfMul_xorLinear_left gfMul_xorLinear_right ?_ ?_ ?_
  · exact fun b => hred.comp (carryless_xorLinear_left b)
  · exact fun a => hred.comp (carryless_xorLinear_right a)
  · decide

/-- A factor x of the multiplicand and of the product so far is a factor x of the product of the loop. -/
theorem gfMulLoop_xtime (n : Nat) (t u p : Byte) :
    gfMulLoop n (xtime t) u (xtime p) = xtime (gfMulLoop n t u p) := by
  induction n generalizing t u p with
  | zero => rfl
  | succ n ih => rw [gfMulLoop, gfMulLoop, ← xtime_xorLinear, ← apply_ite xtime, ih]

theorem gfMul_zero (a : Byte) : gfMul a 0 = 0 := (gfMul_xorLinear_right a).map_zero

theorem zero_gfMul (b : Byte) : gfMul 0 b = 0 := (gfMul_xorLinear_left b).map_zero

theorem gfMul_one (a : Byte) : gfMul a 1 = a :=
  XorLinear.ext (g := id) (gfMul_xorLinear_left 1) (fun _ _ => rfl) (by decide) a

theorem one_gfMul (b : Byte) : gfMul 1 b = b :=
  XorLinear.ext (g := id) (gfMul_xorLinear_right 1) (fun _ _ => rfl) (by decide) b

theorem xtime_gfMul (a b : Byte) : gfMul (xtime a) b = xtime (gfMul a b) := gfMulLoop_xtime 8 a b 0

/-- The single bits of a byte are the powers of x. -/
theorem twoPow_eq_iterate_xtime : ∀ i : Fin 8, BitVec.twoPow 8 i = xtime^[i] 1 := by decide

/-- The product with a power of x is repeated multiplication by x. -/
theorem iterate_xtime_gfMul (i : Nat) (a b : Byte) : gfMul (xtime^[i] a) b = xtime^[i] (gfMul a b) := by
  induction i with
  | zero => rfl
  | succ i ih => rw [Function.iterate_succ_apply', Function.iterate_succ_apply', xtime_gfMul, ih]

theorem twoPow_gfMul (i : Fin 8) (b : Byte) : gfMul (BitVec.twoPow 8 i) b = xtime^[i] b := by
  rw [twoPow_eq_iterate_xtime, iterate_xtime_gfMul, one_gfMul]

/-- Both sides are linear in each operand, and powers of x commute. -/
theorem gfMul_comm (a b : Byte) : gfMul a b = gfMul b a := by
  refine XorLinear.ext₂ (g := fun a b => gfMul b a) gfMul_xorLinear_left gfMul_xorLinear_right gfMul_xorLinear_right
    gfMul_xorLinear_left (fun i j => ?_) a b
  calc gfMul (BitVec.twoPow 8 i) (BitVec.twoPow 8 j)
      = xtime^[i] (xtime^[j] 1) := by rw [twoPow_gfMul, twoPow_eq_iterate_xtime j]
    _ = xtime^[j] (xtime^[i] 1) := Function.Commute.iterate_iterate (Function.Commute.refl xtime) i j 1
    _ = gfMul (BitVec.twoPow 8 j) (BitVec.twoPow 8 i) := by rw [twoPow_gfMul, twoPow_eq_iterate_xtime i]

/-- Both sides are linear in `a`, and for a power of x both multiply `b • c` by x repeatedly. -/
theorem gfMul_assoc (a b c : Byte) : gfMul (gfMul a b) c = gfMul a (gfMul b c) := by
  have hleft : XorLinear fun a => gfMul (gfMul a b) c := (gfMul_xorLinear_left c).comp (gfMul_xorLinear_left b)
  refine XorLinear.ext hleft (gfMul_xorLinear_left (gfMul b c)) (fun i => ?_) a
  rw [twoPow_gfMul, twoPow_gfMul, iterate_xtime_gfMul]

end Sys2Proof.Machine

/-! PROOFS. The inverse and the powers of a byte (40 R53, R54). -/

namespace Sys2Proof.Machine

/-- The product with `b` is 1 exactly when `b` is what `gfInv` finds (40 R54). -/
theorem gfMul_eq_one_iff_gfInv (a b : Byte) : gfMul a b = 1 ↔ gfInv a = some b := by
  by_cases ha : a = 0
  · rw [ha, zero_gfMul, gfInv_zero]
    exact iff_of_false (by decide) (Option.some_ne_none b).symm
  · obtain ⟨c, hc, hac⟩ := gfInv_spec ha
    rw [hc, Option.some_inj]
    constructor
    · intro hab
      calc c = gfMul c (gfMul a b) := by rw [hab, gfMul_one]
        _ = gfMul (gfMul a c) b := by rw [← gfMul_assoc, gfMul_comm c a]
        _ = b := by rw [hac, one_gfMul]
    · rintro rfl
      exact hac

theorem gfPow_zero (a : Byte) : gfPow a 0 = 1 := rfl

theorem gfPow_succ (a : Byte) (n : Nat) : gfPow a (n + 1) = gfMul (gfPow a n) a := rfl

theorem gfPow_one (a : Byte) : gfPow a 1 = a := by rw [gfPow_succ, gfPow_zero, one_gfMul]

theorem zero_gfPow {n : Nat} (h : n ≠ 0) : gfPow 0 n = 0 := by
  obtain ⟨m, rfl⟩ := Nat.exists_eq_succ_of_ne_zero h
  rw [gfPow_succ, gfMul_zero]

theorem gfPow_add (a : Byte) (m n : Nat) : gfPow a (m + n) = gfMul (gfPow a m) (gfPow a n) := by
  induction n with
  | zero => rw [Nat.add_zero, gfPow_zero, gfMul_one]
  | succ n ih => rw [← Nat.add_assoc, gfPow_succ, ih, gfPow_succ, gfMul_assoc]

/-- The square of a byte. -/
def gfSquare (a : Byte) : Byte := gfMul a a

/-- Squaring is linear: the two mixed products are equal and cancel. -/
theorem gfSquare_xorLinear : XorLinear gfSquare := by
  intro a b
  have hcancel : gfMul a b ^^^ gfMul b a = 0 := by rw [gfMul_comm b a]; exact BitVec.xor_self
  calc gfMul (a ^^^ b) (a ^^^ b)
      = gfMul a a ^^^ gfMul b a ^^^ (gfMul a b ^^^ gfMul b b) := by rw [gfMul_xor, xor_gfMul, xor_gfMul]
    _ = gfMul a b ^^^ gfMul b a ^^^ (gfMul a a ^^^ gfMul b b) := by ac_rfl
    _ = gfMul a a ^^^ gfMul b b := by rw [hcancel]; exact BitVec.zero_xor

theorem gfPow_two_pow (a : Byte) (k : Nat) : gfPow a (2 ^ k) = gfSquare^[k] a := by
  induction k with
  | zero => exact gfPow_one a
  | succ k ih => rw [pow_succ, Nat.mul_two, gfPow_add, ih, Function.iterate_succ_apply']; rfl

/-- The 256th power of a byte, eight squarings, is the byte: both are linear, and equal on the eight powers of x. -/
theorem gfPow_256 (a : Byte) : gfPow a 256 = a := by
  calc gfPow a 256 = gfSquare^[8] a := gfPow_two_pow a 8
    _ = a := XorLinear.ext (g := id) (gfSquare_xorLinear.iterate 8) (fun _ _ => rfl) (by decide +kernel) a

theorem gfPow_255 {a : Byte} (h : a ≠ 0) : gfPow a 255 = 1 := by
  obtain ⟨b, -, hab⟩ := gfInv_spec h
  calc gfPow a 255 = gfMul (gfMul (gfPow a 255) a) b := by rw [gfMul_assoc, hab, gfMul_one]
    _ = gfMul a b := by rw [← gfPow_succ, gfPow_256]
    _ = 1 := hab

/-- The inverse is the 254th power (40 R54). -/
theorem gfInv_eq_gfPow_254 {a : Byte} (h : a ≠ 0) : gfInv a = some (gfPow a 254) := by
  rw [← gfMul_eq_one_iff_gfInv, gfMul_comm, ← gfPow_succ, gfPow_255 h]

end Sys2Proof.Machine

/-! PROOFS. The four commands of the field: their encoding, and the answer of each when the value of its function is
known (40 R55 to R58). -/

namespace Sys2Proof.Machine

/-- An opcode that the decoder reads with format B1 is encoded so (30 R37). -/
theorem encodedB1_of_decode {op : BitVec 8} {f : Byte → Instr}
    (h : ∀ a b, decode (cmdWord op a b) = formatB1 op a b f) : EncodedB1 op f := by
  intro s
  constructor
  · intro x
    exact step_present_ok (by rw [h, formatB1, if_pos ⟨aboveByte_byteOperand x, rfl⟩, lowByte_byteOperand])
  · intro a b hab
    exact step_present_error (by rw [h, formatB1, if_neg (not_and_or.mpr hab)])

/-- An opcode that the decoder reads with format B2 is encoded so (30 R37). -/
theorem encodedB2_of_decode {op : BitVec 8} {f : Byte → Byte → Instr}
    (h : ∀ a b, decode (cmdWord op a b) = formatB2 op a b f) : EncodedB2 op f := by
  intro s
  constructor
  · intro x y
    have hmbz := And.intro (aboveByte_byteOperand x) (aboveByte_byteOperand y)
    exact step_present_ok (by rw [h, formatB2, if_pos hmbz, lowByte_byteOperand, lowByte_byteOperand])
  · intro a b hab
    exact step_present_error (by rw [h, formatB2, if_neg (not_and_or.mpr hab)])

section Answers

variable {x y z : Byte}

theorem exec_gfadd_of_eq (h : x ^^^ y = z) (s : State) :
    exec (.gfadd x y) s = .next { s with rsp := some ⟨.ok, z.setWidth 32⟩ } := by rw [← h]; rfl

theorem exec_gfmul_of_eq (h : gfMul x y = z) (s : State) :
    exec (.gfmul x y) s = .next { s with rsp := some ⟨.ok, z.setWidth 32⟩ } := by rw [← h]; rfl

theorem exec_gfpow_of_eq (h : gfPow x y.toNat = z) (s : State) :
    exec (.gfpow x y) s = .next { s with rsp := some ⟨.ok, z.setWidth 32⟩ } := by rw [← h]; rfl

theorem exec_gfinv_zero (s : State) : exec (.gfinv 0) s = .next { s with rsp := some ⟨.error .domain, 0⟩ } := rfl

theorem exec_gfinv_of_eq (h : gfInv x = some z) (s : State) :
    exec (.gfinv x) s = .next { s with rsp := some ⟨.ok, z.setWidth 32⟩ } := by
  rw [exec, execGfinv, h]; rfl

end Answers

/-- Settles O31: the answer is the exclusive or, and the corner cases are its laws. -/
theorem gfaddAnswersTheExclusiveOr : Obligations.GfaddAnswersTheExclusiveOr := by
  unfold Obligations.GfaddAnswersTheExclusiveOr
  refine ⟨encodedB2_of_decode decode_gfadd, ?_, ?_, ?_⟩
  · intro s x y
    exact exec_gfadd_of_eq rfl s
  · intro s x
    exact ⟨exec_gfadd_of_eq BitVec.xor_self s, exec_gfadd_of_eq BitVec.xor_zero s⟩
  · intro s
    exact exec_gfadd_of_eq (z := 0xD4) (by decide) s

/-- Settles O32: the answer is the model's product, which is the reduced carry-less product by O27. -/
theorem gfmulAnswersTheProduct : Obligations.GfmulAnswersTheProduct := by
  unfold Obligations.GfmulAnswersTheProduct
  refine ⟨encodedB2_of_decode decode_gfmul, ?_, ?_, ?_⟩
  · intro s x y
    exact exec_gfmul_of_eq (productIsTheReducedCarrylessProduct x y) s
  · intro s x
    exact ⟨exec_gfmul_of_eq (gfMul_zero x) s, exec_gfmul_of_eq (zero_gfMul x) s, exec_gfmul_of_eq (gfMul_one x) s⟩
  · intro s
    refine ⟨?_, ?_, ?_, ?_⟩
    · exact exec_gfmul_of_eq (z := 0x1B) (by decide) s
    · exact exec_gfmul_of_eq (z := 0x13) (by decide) s
    · exact exec_gfmul_of_eq (z := 0x9A) (by decide) s
    · exact exec_gfmul_of_eq (z := 0xC1) (by decide) s

/-- Settles O33: the answer is the power, and the corner cases are its rules; `x^254` is the inverse. -/
theorem gfpowAnswersThePower : Obligations.GfpowAnswersThePower := by
  unfold Obligations.GfpowAnswersThePower
  refine ⟨encodedB2_of_decode decode_gfpow, ?_, ?_, ?_⟩
  · intro s x y
    exact exec_gfpow_of_eq rfl s
  · intro s x y
    refine ⟨?_, ?_, ?_, ?_, ?_⟩
    · exact exec_gfpow_of_eq (y := 0) (gfPow_zero x) s
    · exact exec_gfpow_of_eq (y := 1) (gfPow_one x) s
    · intro hy
      have hne : y.toNat ≠ 0 := fun h => hy (BitVec.eq_of_toNat_eq h)
      exact exec_gfpow_of_eq (zero_gfPow hne) s
    · intro hx
      exact exec_gfpow_of_eq (y := 255) (gfPow_255 hx) s
    · intro hx
      exact (exec_gfpow_of_eq rfl s).trans (exec_gfinv_of_eq (gfInv_eq_gfPow_254 hx) s).symm
  · intro s
    exact ⟨exec_gfpow_of_eq (z := 0x1B) (by decide) s, exec_gfpow_of_eq (y := 0) (gfPow_zero 0) s⟩

/-- Settles O34: `gfInv` finds the one byte whose product with `x` is 1; the product commutes, so the inverse of that
byte is `x`. -/
theorem gfinvAnswersTheInverse : Obligations.GfinvAnswersTheInverse := by
  unfold Obligations.GfinvAnswersTheInverse
  refine ⟨encodedB1_of_decode decode_gfinv, exec_gfinv_zero, ?_, ?_⟩
  · intro s x hx
    obtain ⟨b, hb, hxb⟩ := gfInv_spec hx
    have hbx : gfInv b = some x := (gfMul_eq_one_iff_gfInv b x).mp ((gfMul_comm b x).trans hxb)
    refine ⟨b, ?_, exec_gfinv_of_eq hb s, exec_gfinv_of_eq hbx s⟩
    intro b'
    rw [gfMul_eq_one_iff_gfInv, hb, Option.some_inj, eq_comm]
  · intro s
    exact ⟨exec_gfinv_of_eq (z := 1) (by decide) s, exec_gfinv_of_eq (z := 0xCA) (by decide) s⟩

end Sys2Proof.Machine

/-! PROOFS. The two affine maps undo each other, and so do the two substitutions (41 R60 to R63, R66). -/

namespace Sys2Proof.Machine

theorem getLsbD_affine (m : Byte) {i : Nat} (hi : i < 8) : (affine m).getLsbD i =
    (m.getLsbD i ^^ m.getLsbD ((i + 4) % 8) ^^ m.getLsbD ((i + 5) % 8) ^^ m.getLsbD ((i + 6) % 8) ^^
      m.getLsbD ((i + 7) % 8) ^^ (0x63#8).getLsbD i) := by
  have h0 (b : Byte) : bitAt b ⟨i, hi⟩ 0 = b.getLsbD i := congrArg b.getLsbD (Nat.mod_eq_of_lt hi)
  rw [affine, byteOfBits_get _ ⟨i, hi⟩, h0, h0]
  rfl

theorem getLsbD_invAffine (b : Byte) {i : Nat} (hi : i < 8) : (invAffine b).getLsbD i =
    ((b ^^^ 0x63#8).getLsbD ((i + 2) % 8) ^^ (b ^^^ 0x63#8).getLsbD ((i + 5) % 8) ^^
      (b ^^^ 0x63#8).getLsbD ((i + 7) % 8)) := by
  rw [invAffine, byteOfBits_get _ ⟨i, hi⟩]
  rfl

/-- `affine` is a linear map and then the exclusive or with 0x63. -/
theorem affine_xorLinear : XorLinear fun m => affine m ^^^ 0x63#8 := by
  intro a b
  refine BitVec.eq_of_getLsbD_eq fun i hi => ?_
  simp only [BitVec.getLsbD_xor, getLsbD_affine _ hi, Bool.xor_assoc, Bool.xor_self, Bool.xor_false]
  have hcomm : Std.Commutative Bool.xor := ⟨Bool.xor_comm⟩
  ac_rfl

/-- `invAffine` is the exclusive or with 0x63 and then a linear map. -/
theorem invAffine_xorLinear : XorLinear fun t => invAffine (t ^^^ 0x63#8) := by
  intro a b
  refine BitVec.eq_of_getLsbD_eq fun i hi => ?_
  simp only [BitVec.getLsbD_xor, getLsbD_invAffine _ hi, Bool.xor_assoc, Bool.xor_self, Bool.xor_false]
  have hcomm : Std.Commutative Bool.xor := ⟨Bool.xor_comm⟩
  ac_rfl

/-- The two exclusive ors with 0x63 cancel, and the linear maps undo each other on the powers of x. -/
theorem invAffine_affine (m : Byte) : invAffine (affine m) = m := by
  have hid := XorLinear.ext (g := id) (invAffine_xorLinear.comp affine_xorLinear) (fun _ _ => rfl) (by decide) m
  rwa [BitVec.xor_assoc, BitVec.xor_self, BitVec.xor_zero] at hid

theorem affine_invAffine (b : Byte) : affine (invAffine b) = b := by
  have hid := XorLinear.ext (g := id) (affine_xorLinear.comp invAffine_xorLinear) (fun _ _ => rfl) (by decide)
    (b ^^^ 0x63#8)
  rw [BitVec.xor_assoc, BitVec.xor_self, BitVec.xor_zero] at hid
  exact (BitVec.xor_left_inj _).mp hid

/-- 0x63 is the only byte that the inverse affine map sends to 0 (41 R62). -/
theorem invAffine_eq_zero_iff (b : Byte) : invAffine b = 0 ↔ b = 0x63 := by
  constructor
  · intro h
    calc b = affine (invAffine b) := (affine_invAffine b).symm
      _ = 0x63 := by rw [h]; decide
  · rintro rfl
    decide

theorem invOrZero_zero : invOrZero 0 = 0 := rfl

theorem invOrZero_of_gfInv {a b : Byte} (h : gfInv a = some b) : invOrZero a = b := by
  rw [invOrZero, h]

theorem gfMul_invOrZero {a : Byte} (h : a ≠ 0) : gfMul a (invOrZero a) = 1 := by
  obtain ⟨b, hb, hab⟩ := gfInv_spec h
  rwa [invOrZero_of_gfInv hb]

theorem invOrZero_invOrZero (a : Byte) : invOrZero (invOrZero a) = a := by
  by_cases ha : a = 0
  · rw [ha, invOrZero_zero, invOrZero_zero]
  · refine invOrZero_of_gfInv ((gfMul_eq_one_iff_gfInv _ _).mp ?_)
    rw [gfMul_comm, gfMul_invOrZero ha]

theorem invSbox_sbox (b : Byte) : invSbox (sbox b) = b := by
  rw [invSbox, sbox, invAffine_affine, invOrZero_invOrZero]

/-- 0x52 is the only byte that the S-box sends to 0 (41 R64). -/
theorem sbox_eq_zero_iff (x : Byte) : sbox x = 0 ↔ x = 0x52 := by
  constructor
  · intro h
    calc x = invSbox (sbox x) := (invSbox_sbox x).symm
      _ = 0x52 := by rw [h]; decide
  · rintro rfl
    decide

end Sys2Proof.Machine

/-! PROOFS. The two commands of the S-box: the answer of each when the value of its function is known (41 R64, R65). -/

namespace Sys2Proof.Machine

section Answers

variable {x z : Byte}

theorem exec_sbox_of_eq (h : sbox x = z) (s : State) :
    exec (.sbox x) s = .next { s with rsp := some ⟨.ok, z.setWidth 32⟩ } := by rw [← h]; rfl

theorem exec_isbox_of_eq (h : invSbox x = z) (s : State) :
    exec (.isbox x) s = .next { s with rsp := some ⟨.ok, z.setWidth 32⟩ } := by rw [← h]; rfl

end Answers

/-- SBOX answers 0 exactly when the S-box does: the zero extension of a byte keeps its low eight bits. -/
theorem exec_sbox_answers_zero_iff (x : Byte) (s : State) :
    exec (.sbox x) s = .next { s with rsp := some ⟨.ok, 0⟩ } ↔ sbox x = 0 := by
  constructor
  · intro h
    rw [exec_sbox_of_eq rfl s] at h
    injection h with h
    have hr : (sbox x).setWidth 32 = 0#32 := by simpa using congrArg State.rsp h
    simpa using congrArg (BitVec.setWidth 8) hr
  · intro h
    exact exec_sbox_of_eq h s

/-- Settles O37: `m` is the inverse with zero kept, and the S-box is one to one, so 0x52 alone is sent to 0. -/
theorem sboxAnswersTheSubstitution : Obligations.SboxAnswersTheSubstitution := by
  unfold Obligations.SboxAnswersTheSubstitution
  refine ⟨encodedB1_of_decode decode_sbox, ?_, ?_⟩
  · intro s x
    refine ⟨invOrZero x, sbox x, ?_, gfMul_invOrZero, fun _ => getLsbD_affine _, exec_sbox_of_eq rfl s⟩
    rintro rfl
    exact invOrZero_zero
  · intro s
    refine ⟨exec_sbox_of_eq (z := 0x63) (by decide) s, exec_sbox_of_eq (z := 0x7C) (by decide) s,
      exec_sbox_of_eq (z := 0xED) (by decide) s, ?_⟩
    intro x
    rw [exec_sbox_answers_zero_iff, sbox_eq_zero_iff]

/-- Settles O38: `m` is the inverse affine map of `x`, and the answer is its inverse with zero kept, so there is no
error at 0x63, where `m` is 0. -/
theorem isboxAnswersTheInverseSubstitution : Obligations.IsboxAnswersTheInverseSubstitution := by
  unfold Obligations.IsboxAnswersTheInverseSubstitution
  refine ⟨encodedB1_of_decode decode_isbox, ?_, ?_⟩
  · intro s x
    refine ⟨invAffine x, invSbox x, fun _ => getLsbD_invAffine x, invAffine_eq_zero_iff x, ?_, gfMul_invOrZero,
      exec_isbox_of_eq rfl s⟩
    intro hm
    rw [invSbox, hm, invOrZero_zero]
  · intro s
    exact ⟨exec_isbox_of_eq (z := 0) (by decide) s, exec_isbox_of_eq (z := 0x52) (by decide) s,
      exec_isbox_of_eq (z := 0x53) (by decide) s⟩

end Sys2Proof.Machine

/-! PROOFS. The product of two Words: its bytes, its operands exchanged, its zero and its one (42 R71). -/

namespace Sys2Proof.Machine

open Sys2Proof.Config (WordOrder)

/-- Two Words are equal if their four bytes are. -/
theorem word_ext {w v : Word} (h : ∀ k, byte w k = byte v k) : w = v := by
  rw [← word_bytes w, ← word_bytes v, h, h, h, h]

theorem byte_zero (k : Fin 4) : byte 0 k = 0 := BitVec.extractLsb'_zero

theorem xor4_zero : xor4 (fun _ => 0) = 0 := rfl

/-- The sum over `j` of what stands at `c - j` is the sum: the terms come in another order. -/
theorem xor4_sub (c : Fin 4) (t : Fin 4 → Byte) : xor4 (fun j => t (c - j)) = xor4 t := by
  match c with
  | 0 => exact (by ac_rfl : t 0 ^^^ t 3 ^^^ t 2 ^^^ t 1 = t 0 ^^^ t 1 ^^^ t 2 ^^^ t 3)
  | 1 => exact (by ac_rfl : t 1 ^^^ t 0 ^^^ t 3 ^^^ t 2 = t 0 ^^^ t 1 ^^^ t 2 ^^^ t 3)
  | 2 => exact (by ac_rfl : t 2 ^^^ t 1 ^^^ t 0 ^^^ t 3 = t 0 ^^^ t 1 ^^^ t 2 ^^^ t 3)
  | 3 => exact (by ac_rfl : t 3 ^^^ t 2 ^^^ t 1 ^^^ t 0 = t 0 ^^^ t 1 ^^^ t 2 ^^^ t 3)

/-- Byte `m` of the product: the two bytes of a term stand at positions that add up to `m + rho` (42 R71). -/
theorem byte_wordMul (ord : WordOrder) (w v : Word) (m : Fin 4) :
    byte (wordMul ord w v) m = xor4 fun j => gfMul (byte v (m + rho ord - j)) (byte w j) := by
  simp only [add_sub_right_comm]
  match m with
  | 0 => exact byte_word_0 ..
  | 1 => exact byte_word_1 ..
  | 2 => exact byte_word_2 ..
  | 3 => exact byte_word_3 ..

/-- In each byte the same terms are added in another order, and the factors of each commute. -/
theorem wordMul_comm (ord : WordOrder) (w v : Word) : wordMul ord w v = wordMul ord v w := by
  refine word_ext fun m => ?_
  rw [byte_wordMul, byte_wordMul, ← xor4_sub (m + rho ord)]
  simp only [sub_sub_cancel, gfMul_comm]

theorem wordMul_zero (ord : WordOrder) (w : Word) : wordMul ord w 0 = 0 := by
  refine word_ext fun m => ?_
  simp only [byte_wordMul, byte_zero, zero_gfMul, xor4_zero]

theorem zero_wordMul (ord : WordOrder) (v : Word) : wordMul ord 0 v = 0 := by
  rw [wordMul_comm, wordMul_zero]

/-- The four sums of 42 R71 under `ASC`. -/
theorem wordMul_asc (w v : Word) : wordMul .asc w v = word
    (gfMul (byte v 0) (byte w 0) ^^^ gfMul (byte v 3) (byte w 1) ^^^ gfMul (byte v 2) (byte w 2) ^^^
      gfMul (byte v 1) (byte w 3))
    (gfMul (byte v 1) (byte w 0) ^^^ gfMul (byte v 0) (byte w 1) ^^^ gfMul (byte v 3) (byte w 2) ^^^
      gfMul (byte v 2) (byte w 3))
    (gfMul (byte v 2) (byte w 0) ^^^ gfMul (byte v 1) (byte w 1) ^^^ gfMul (byte v 0) (byte w 2) ^^^
      gfMul (byte v 3) (byte w 3))
    (gfMul (byte v 3) (byte w 0) ^^^ gfMul (byte v 2) (byte w 1) ^^^ gfMul (byte v 1) (byte w 2) ^^^
      gfMul (byte v 0) (byte w 3)) := rfl

/-- The polynomial 1 under `ASC` is the unit of the product: of each sum one term is left. -/
theorem wordMul_asc_one (w : Word) : wordMul .asc w 0x01000000#32 = w := by
  have hone : 0x01000000#32 = word 1 0 0 0 := by decide
  rw [hone, wordMul_asc, byte_word_0, byte_word_1, byte_word_2, byte_word_3]
  simp only [one_gfMul, zero_gfMul]
  simp

end Sys2Proof.Machine

/-! PROOFS. The command of the Word product: its encoding, and its answer when the product is known (42 R74). -/

namespace Sys2Proof.Machine

/-- An opcode that the decoder reads with format W2 is encoded so (30 R37). -/
theorem encodedW2_of_decode {op : BitVec 8} {f : Word → Word → Instr}
    (h : ∀ a b, decode (cmdWord op a b) = formatW2 a b f) : EncodedW2 op f :=
  fun _ w v => step_present_ok (h w v)

theorem exec_wmul_of_eq {w v u : Word} (h : wordMul .asc w v = u) (s : State) :
    exec (.wmul w v) s = .next { s with rsp := some ⟨.ok, u⟩ } := by rw [← h]; rfl

/-- Settles O41: the answer is the product under `ASC`, and the corner cases are its one, its zero and its
commutativity. -/
theorem wmulAnswersTheWordProduct : Obligations.WmulAnswersTheWordProduct := by
  unfold Obligations.WmulAnswersTheWordProduct
  refine ⟨encodedW2_of_decode decode_wmul, ?_, ?_, ?_⟩
  · intro s w v
    exact exec_wmul_of_eq (wordMul_asc w v) s
  · intro s w v
    refine ⟨?_, ?_, ?_, ?_⟩
    · exact exec_wmul_of_eq (wordMul_asc_one w) s
    · exact exec_wmul_of_eq (wordMul_zero .asc w) s
    · exact exec_wmul_of_eq (zero_wordMul .asc v) s
    · exact (exec_wmul_of_eq (wordMul_comm .asc w v) s).trans (exec_wmul_of_eq rfl s).symm
  · intro s
    exact ⟨exec_wmul_of_eq (u := 0x8E4DA1BC#32) (by decide) s, exec_wmul_of_eq (u := 0xDB135345#32) (by decide) s⟩

end Sys2Proof.Machine

/-! PROOFS. The commands with no operand and with an index: their encodings (30 R37). -/

namespace Sys2Proof.Machine

/-- An opcode that the decoder reads with format N is encoded so (30 R37). -/
theorem encodedN_of_decode {op : BitVec 8} {i : Instr} (h : ∀ a b, decode (cmdWord op a b) = formatN op a b i) :
    EncodedN op i := by
  intro s
  constructor
  · exact step_present_ok ((h 0 0).trans (if_pos ⟨rfl, rfl⟩))
  · intro a b hab
    exact step_present_error ((h a b).trans (if_neg (not_and_or.mpr hab)))

/-- An opcode that the decoder reads with format I is encoded so (30 R37). -/
theorem encodedI_of_decode {op : BitVec 8} {f : Nat → Instr}
    (h : ∀ a b, decode (cmdWord op a b) = formatI op a b f) : EncodedI op f := by
  intro s
  constructor
  · intro idx hidx
    have hd := (h 0 (indexOperand idx)).trans (if_pos ⟨rfl, aboveIndex_indexOperand idx⟩)
    rw [lowIndex_indexOperand hidx] at hd
    exact step_present_ok hd
  · intro a b hab
    exact step_present_error ((h a b).trans (if_neg (not_and_or.mpr hab)))

/-- An opcode that the decoder reads with format WI is encoded so (30 R37). -/
theorem encodedWI_of_decode {op : BitVec 8} {f : Nat → Word → Instr}
    (h : ∀ a b, decode (cmdWord op a b) = formatWI op a b f) : EncodedWI op f := by
  intro s
  constructor
  · intro idx w hidx
    have hd := (h w (indexOperand idx)).trans (if_pos (aboveIndex_indexOperand idx))
    rw [lowIndex_indexOperand hidx] at hd
    exact step_present_ok hd
  · intro a b hb
    exact step_present_error ((h a b).trans (if_neg hb))

end Sys2Proof.Machine

/-! PROOFS. The two commands that move one column (43 R87, R88). -/

namespace Sys2Proof.Machine

/-- RDS at an index above 3 answers `E_INDEX` and changes nothing else (60 R138). -/
theorem exec_rds_of_le {idx : Nat} (h : 4 ≤ idx) (s : State) :
    exec (.rds idx) s = .next { s with rsp := some ⟨.error .index, 0⟩ } :=
  withIndex_of_le h fun c => s.ok (s.readColumn c)

/-- The bytes of a State after column `idx` is loaded from `w`: those of `w` there, the old ones elsewhere. -/
theorem set_columnOfWord_getElem (T : Block) {idx : Nat} (h : idx < 4) (w : Word) (c r : Fin 4) :
    (T.set idx (columnOfWord w))[c][r] = if c.val = idx then byte w r else T[c][r] := by
  by_cases hc : c.val = idx
  · subst hc
    simp
  · simp [hc, Vector.getElem_set_ne h c.isLt (Ne.symm hc)]

/-- Settles O42: in range the column is replaced, out of range the answer is `E_INDEX`. -/
theorem ldsLoadsOneColumn : Obligations.LdsLoadsOneColumn := by
  unfold Obligations.LdsLoadsOneColumn
  refine ⟨encodedWI_of_decode decode_lds, ?_, ?_⟩
  · intro s idx w hidx
    have hlt : idx < 4 := Nat.lt_succ_of_le hidx
    exact ⟨_, exec_lds_of_lt hlt w s, rfl, set_columnOfWord_getElem s.S hlt w⟩
  · intro s idx w hidx
    exact exec_lds_of_le hidx w s

/-- Settles O43: in range the answer is the Word of the column, out of range it is `E_INDEX`. -/
theorem rdsReadsOneColumn : Obligations.RdsReadsOneColumn := by
  unfold Obligations.RdsReadsOneColumn
  refine ⟨encodedI_of_decode decode_rds, ?_, ?_, ?_⟩
  · intro s c
    exact exec_rds_of_lt c.isLt s
  · intro s hS
    have hcolumn : wordOfColumn s.S[2] = 0x08090A0B#32 := by rw [hS]; decide
    rw [exec_rds_of_lt (by decide) s, hcolumn]
  · intro s idx hidx
    exact exec_rds_of_le hidx s

end Sys2Proof.Machine

/-! PROOFS. The byte of each transform at one position (43 R80 to R83, R86), and the command of each as the
transform of `S`. -/

namespace Sys2Proof.Machine

theorem subBytes_getElem (T : Block) (c r : Fin 4) : (subBytes T)[c][r] = sbox T[c][r] := blockOf_get _ c r

theorem invSubBytes_getElem (T : Block) (c r : Fin 4) : (invSubBytes T)[c][r] = invSbox T[c][r] := blockOf_get _ c r

/-- Row `r` moves by `r` columns: the new byte is the old one of the column `c + r` modulo 4 (43 R82). -/
theorem shiftRows_getElem (T : Block) {c r c' : Fin 4} (h : c'.val = (c.val + r.val) % 4) :
    (shiftRows T)[c][r] = T[c'][r] := by
  obtain rfl : c' = c + r := Fin.ext h
  exact blockOf_get _ c r

/-- Row `r` moves back by `r` columns: the new byte is the old one of the column `c + 4 - r` modulo 4 (43 R83). -/
theorem invShiftRows_getElem (T : Block) {c r c' : Fin 4} (h : c'.val = (c.val + 4 - r.val) % 4) :
    (invShiftRows T)[c][r] = T[c'][r] := by
  obtain rfl : c' = c - r := by omega
  exact blockOf_get _ c r

theorem addRoundKey_getElem (T : Block) (k : Key) (c r : Fin 4) :
    (addRoundKey T k)[c][r] = T[c][r] ^^^ byte k[c] r := blockOf_get _ c r

theorem roundKey_getElem (w : Schedule) (k : Fin 11) (c : Fin 4) : (roundKey w k)[c] = w[4 * k.val + c.val] :=
  Vector.getElem_ofFn c.isLt

theorem exec_subbytes (s : State) : exec .subbytes s = .next { s with S := subBytes s.S, rsp := okZero } := rfl

theorem exec_invsubbytes (s : State) : exec .invsubbytes s = .next { s with S := invSubBytes s.S, rsp := okZero } := rfl

theorem exec_shiftrows (s : State) : exec .shiftrows s = .next { s with S := shiftRows s.S, rsp := okZero } := rfl

theorem exec_invshiftrows (s : State) :
    exec .invshiftrows s = .next { s with S := invShiftRows s.S, rsp := okZero } := rfl

/-- ADDROUNDKEY in range with a valid schedule adds the round key to `S` (43 R95). -/
theorem exec_addroundkey_of_valid {s : State} (h : s.KV = true) (k : Fin 11) :
    exec (.addroundkey k.val) s = .next { s with S := ark s.S s.W k, rsp := okZero } :=
  (withIndex_of_lt k.isLt _).trans (withKey_of_valid h ((s.writeS (ark s.S s.W k)).ok 0))

/-- ADDROUNDKEY at an index above 10 answers `E_INDEX`, with or without a key (60 R138, R141). -/
theorem exec_addroundkey_of_le {idx : Nat} (h : 11 ≤ idx) (s : State) :
    exec (.addroundkey idx) s = .next { s with rsp := some ⟨.error .index, 0⟩ } :=
  withIndex_of_le h _

/-- ADDROUNDKEY in range without a valid schedule answers `E_NOKEY` (60 R140). -/
theorem exec_addroundkey_of_invalid {s : State} {idx : Nat} (h : idx < 11) (hKV : s.KV = false) :
    exec (.addroundkey idx) s = .next { s with rsp := some ⟨.error .noKey, 0⟩ } :=
  (withIndex_of_lt h _).trans (withKey_of_invalid hKV _)

/-- What a command is known to leave in `S` is what any run of it leaves there. -/
theorem S_eq_of_exec {i : Instr} {s t : State} {T : Block} {x : Option Response}
    (h : exec i s = .next { s with S := T, rsp := x }) (ht : exec i s = .next t) : t.S = T := by
  obtain rfl : _ = t := Host.Outcome.next.inj (h.symm.trans ht)
  rfl

end Sys2Proof.Machine

/-! PROOFS. SUBBYTES and INVSUBBYTES (43 R89, R90). -/

namespace Sys2Proof.Machine

/-- The S-box has no fixed point (41 R66; all 256 bytes evaluated). -/
theorem sbox_ne_self : ∀ b : Byte, sbox b ≠ b := by decide

/-- Settles O44: the byte at each position is the substitution of the old one, and the S-box has no fixed point. -/
theorem subBytesActsByteByByte : Obligations.SubBytesActsByteByByte := by
  unfold Obligations.SubBytesActsByteByByte
  refine ⟨encodedN_of_decode decode_subbytes, encodedN_of_decode decode_invsubbytes, ?_, ?_, ?_⟩
  · intro s
    refine ⟨_, exec_subbytes s, rfl, fun c r => ?_⟩
    rw [subBytes_getElem]
    refine ⟨rfl, sbox_ne_self _, fun h => ?_⟩
    rw [h]; decide
  · intro s
    refine ⟨_, exec_invsubbytes s, rfl, fun c r => ⟨invSubBytes_getElem _ c r, fun h => ?_⟩⟩
    rw [invSubBytes_getElem, h]; decide
  · intro s t hS
    constructor
    · intro ht
      rw [S_eq_of_exec (exec_subbytes s) ht, hS]; decide
    · intro ht
      rw [S_eq_of_exec (exec_invsubbytes s) ht, hS]; decide

end Sys2Proof.Machine

/-! PROOFS. SHIFTROWS and INVSHIFTROWS (43 R91, R92). -/

namespace Sys2Proof.Machine

/-- Four equal columns stay: row by row the rotation meets equal bytes. -/
theorem shiftRows_of_columns_eq {T : Block} (h : ∀ c c' : Fin 4, T[c] = T[c']) : shiftRows T = T := by
  refine block_ext fun c r => ?_
  rw [shiftRows_getElem T (Fin.val_add c r), h (c + r) c]

/-- Settles O45: the byte at each position comes from the rotated column, which in row 0 is the column itself. -/
theorem shiftRowsRotatesTheRows : Obligations.ShiftRowsRotatesTheRows := by
  unfold Obligations.ShiftRowsRotatesTheRows
  refine ⟨encodedN_of_decode decode_shiftrows, encodedN_of_decode decode_invshiftrows, ?_, ?_, ?_⟩
  · intro s
    refine ⟨_, exec_shiftrows s, rfl, fun _ _ _ => shiftRows_getElem s.S, shiftRows_of_columns_eq, ?_⟩
    intro c
    exact shiftRows_getElem s.S (r := 0) (Nat.mod_eq_of_lt c.isLt).symm
  · intro s
    exact ⟨_, exec_invshiftrows s, rfl, fun _ _ _ => invShiftRows_getElem s.S⟩
  · intro s t hS
    constructor
    · intro ht
      rw [S_eq_of_exec (exec_shiftrows s) ht, hS]; decide
    · intro ht
      rw [S_eq_of_exec (exec_invshiftrows s) ht, hS]; decide

end Sys2Proof.Machine

/-! PROOFS. ADDROUNDKEY (43 R95): the same round key added twice cancels, and round key 0 of an expansion is the
key. -/

namespace Sys2Proof.Machine

theorem addRoundKey_addRoundKey (T : Block) (k : Key) : addRoundKey (addRoundKey T k) k = T := by
  refine block_ext fun c r => ?_
  rw [addRoundKey_getElem, addRoundKey_getElem, BitVec.xor_assoc, BitVec.xor_self, BitVec.xor_zero]

theorem ark_ark (T : Block) (w : Schedule) (k : Fin 11) : ark (ark T w k) w k = T := addRoundKey_addRoundKey T _

theorem ark_getElem (T : Block) (w : Schedule) (k : Fin 11) (c r : Fin 4) :
    (ark T w k)[c][r] = T[c][r] ^^^ byte w[4 * k.val + c.val] r := by
  rw [← roundKey_getElem]
  exact addRoundKey_getElem T _ c r

/-- The first four words of the expansion are the key (44 R103). -/
theorem expandKey_getElem_key (k : Key) (j : Fin 4) : (expandKey k)[j.val] = k[j] := by
  fin_cases j <;> rfl

/-- Round key 0 of an expanded key is the key (44 R111). -/
theorem roundKey_expandKey_zero (k : Key) : roundKey (expandKey k) 0 = k := by
  refine Vector.ext fun j hj => ?_
  calc (roundKey (expandKey k) 0)[j]
      = (expandKey k)[4 * 0 + j] := roundKey_getElem _ 0 ⟨j, hj⟩
    _ = (expandKey k)[j] := by simp only [Nat.mul_zero, Nat.zero_add]
    _ = k[j] := expandKey_getElem_key k ⟨j, hj⟩

/-- Settles O47: with a valid schedule the round key is added, and added again it cancels; the index is checked
before the key. -/
theorem addroundkeyAddsTheRoundKey : Obligations.AddroundkeyAddsTheRoundKey := by
  unfold Obligations.AddroundkeyAddsTheRoundKey
  refine ⟨encodedI_of_decode decode_addroundkey, ?_, ?_, ?_⟩
  · intro s k hKV
    refine ⟨_, exec_addroundkey_of_valid hKV k, rfl, ark_getElem s.S s.W k, ?_, ?_⟩
    · have hagain := exec_addroundkey_of_valid (s := { s with S := ark s.S s.W k, rsp := okZero }) hKV k
      rwa [ark_ark] at hagain
    · rintro hvalid rfl c r
      have hkey : roundKey s.W 0 = s.K := by rw [hvalid hKV, roundKey_expandKey_zero]
      rw [← hkey]
      exact addRoundKey_getElem s.S _ c r
  · intro s t hKV hS hW ht
    rw [S_eq_of_exec (exec_addroundkey_of_valid hKV 1) ht, hS, hW]; decide
  · intro s idx
    constructor
    · intro hidx
      exact exec_addroundkey_of_le hidx s
    · intro hidx hKV
      exact exec_addroundkey_of_invalid (Nat.lt_succ_of_le hidx) hKV

end Sys2Proof.Machine

/-! PROOFS. ROTWORD and SUBWORD (44 R100, R101, R104, R105). -/

namespace Sys2Proof.Machine

/-- An opcode that the decoder reads with format W1 is encoded so (30 R37). -/
theorem encodedW1_of_decode {op : BitVec 8} {f : Word → Instr}
    (h : ∀ a b, decode (cmdWord op a b) = formatW1 op a b f) : EncodedW1 op f := by
  intro s
  constructor
  · intro w
    exact step_present_ok ((h w 0).trans (if_pos rfl))
  · intro a b hb
    exact step_present_error ((h a b).trans (if_neg hb))

@[simp] theorem rotWord_word (b0 b1 b2 b3 : Byte) : rotWord (word b0 b1 b2 b3) = word b1 b2 b3 b0 := by
  rw [rotWord, byte_word_0, byte_word_1, byte_word_2, byte_word_3]

@[simp] theorem subWord_word (b0 b1 b2 b3 : Byte) :
    subWord (word b0 b1 b2 b3) = word (sbox b0) (sbox b1) (sbox b2) (sbox b3) := by
  rw [subWord, byte_word_0, byte_word_1, byte_word_2, byte_word_3]

theorem byte_subWord (w : Word) (k : Fin 4) : byte (subWord w) k = sbox (byte w k) := by
  match k with
  | 0 => exact byte_word_0 ..
  | 1 => exact byte_word_1 ..
  | 2 => exact byte_word_2 ..
  | 3 => exact byte_word_3 ..

/-- Rotating the bytes left by one is rotating the bits left by eight (44 R100): bits 7:0 are the old bits 31:24, and
every other bit is the old one eight places below. -/
theorem rotWord_eq_shifts (w : Word) : rotWord w = (w <<< 8) ||| (w >>> 24) := by
  refine BitVec.eq_of_getLsbD_eq fun i hi => ?_
  rcases Nat.lt_or_ge i 8 with h | h
  · simp [rotWord, byte, word, hi, h, show i < 24 by omega, show i < 16 by omega]
  · have hright : w.getLsbD (24 + i) = false := BitVec.getLsbD_of_ge w (24 + i) (by omega)
    have hleft : w.getLsbD (i - 8) = w[i - 8] := BitVec.getLsbD_eq_getElem (by omega)
    rcases (by omega : i < 16 ∨ 16 ≤ i ∧ i < 24 ∨ 24 ≤ i) with h' | h' | h'
    · simp [rotWord, byte, word, hi, hright, hleft, show ¬ i < 8 by omega, h', show i < 24 by omega,
        show i - 8 < 8 by omega]
    · simp [rotWord, byte, word, hi, hright, hleft, show ¬ i < 8 by omega, show ¬ i < 16 by omega, h',
        show ¬ i - 8 < 8 by omega, show i - 16 < 8 by omega, show 8 + (i - 16) = i - 8 by omega]
    · simp [rotWord, byte, word, hi, hright, hleft, show ¬ i < 8 by omega, show ¬ i < 16 by omega,
        show ¬ i < 24 by omega, show ¬ i - 8 < 8 by omega, show ¬ i - 16 < 8 by omega, show i - 24 < 8 by omega,
        show 16 + (i - 24) = i - 8 by omega]

/-- Four rotations of a Word restore it (44 R104). -/
theorem rotWord_four_times (w : Word) : rotWord (rotWord (rotWord (rotWord w))) = w := by
  rw [← word_bytes w, rotWord_word, rotWord_word, rotWord_word, rotWord_word]

theorem exec_rotword_of_eq {w v : Word} (h : rotWord w = v) (s : State) :
    exec (.rotword w) s = .next { s with rsp := some ⟨.ok, v⟩ } := by rw [← h]; rfl

theorem exec_subword_of_eq {w v : Word} (h : subWord w = v) (s : State) :
    exec (.subword w) s = .next { s with rsp := some ⟨.ok, v⟩ } := by rw [← h]; rfl

/-- Settles O49: the answers are the rotation and the substitution of the bytes, and rotating the bytes is rotating the
bits by eight. -/
theorem rotwordAndSubwordAnswer : Obligations.RotwordAndSubwordAnswer := by
  unfold Obligations.RotwordAndSubwordAnswer
  refine ⟨encodedW1_of_decode decode_rotword, encodedW1_of_decode decode_subword, ?_, ?_, ?_, rotWord_four_times, ?_⟩
  · intro s w
    exact exec_rotword_of_eq (rotWord_eq_shifts w) s
  · intro s b0 b1 b2 b3
    exact ⟨exec_rotword_of_eq (rotWord_word b0 b1 b2 b3) s, exec_subword_of_eq (subWord_word b0 b1 b2 b3) s⟩
  · intro s w
    exact ⟨subWord w, exec_subword_of_eq rfl s, byte_subWord w⟩
  · intro s
    exact ⟨exec_rotword_of_eq (by decide) s, exec_subword_of_eq (by decide) s, exec_subword_of_eq (by decide) s⟩

end Sys2Proof.Machine

/-! PROOFS. RCON (44 R102, R106): from 1 on the round constant is a power of 02, and 02 has order 51. -/

namespace Sys2Proof.Machine

theorem rcon?_zero : rcon? 0 = none := rfl

theorem rcon?_of_pos {n : Nat} (h : 1 ≤ n) : rcon? n = some (word (gfPow 0x02 (n - 1)) 0 0 0) := by
  obtain ⟨m, rfl⟩ := Nat.exists_eq_add_of_le' h
  rfl

/-- The 51st power of 02 is 1, so its powers repeat with period 51. -/
theorem gfPow_two_add_51 (n : Nat) : gfPow 0x02 (n + 51) = gfPow 0x02 n := by
  have hone : gfPow 0x02 51 = 1 := by decide +kernel
  rw [gfPow_add, hone, gfMul_one]

/-- The round constants repeat with period 51 (44 R102). -/
theorem rcon?_add_51 {n : Nat} (h : 1 ≤ n) : rcon? (n + 51) = rcon? n := by
  rw [rcon?_of_pos h, rcon?_of_pos (Nat.le_add_right_of_le h), Nat.sub_add_comm h, gfPow_two_add_51]

theorem exec_rcon_zero (s : State) : exec (.rcon 0) s = .next { s with rsp := some ⟨.error .domain, 0⟩ } := rfl

theorem exec_rcon_of_eq {x : Byte} {w : Word} (h : rcon? x.toNat = some w) (s : State) :
    exec (.rcon x) s = .next { s with rsp := some ⟨.ok, w⟩ } := by
  rw [exec, execRcon, h]; rfl

/-- Settles O50: a nonzero byte is at least 1 as a number, where the round constant is the power. -/
theorem rconAnswersTheRoundConstant : Obligations.RconAnswersTheRoundConstant := by
  unfold Obligations.RconAnswersTheRoundConstant
  refine ⟨encodedB1_of_decode decode_rcon, ?_, exec_rcon_zero, ?_, fun _ => rcon?_add_51, rcon?_zero⟩
  · intro s x hx
    have hpos : 1 ≤ x.toNat := Nat.one_le_iff_ne_zero.mpr fun h => hx (BitVec.eq_of_toNat_eq h)
    exact exec_rcon_of_eq (rcon?_of_pos hpos) s
  · intro s
    exact ⟨exec_rcon_of_eq (by decide) s, exec_rcon_of_eq (by decide) s, exec_rcon_of_eq (by decide) s,
      exec_rcon_of_eq (x := 52) ((rcon?_add_51 le_rfl).trans rfl) s⟩

end Sys2Proof.Machine

/-! PROOFS. LDKEY and RDW, the two commands of the family with an index (44 R107, R109). -/

namespace Sys2Proof.Machine

/-- LDKEY at an index above 3 answers `E_INDEX` and changes nothing else (60 R138). -/
theorem exec_ldkey_of_le {idx : Nat} (h : 4 ≤ idx) (w : Word) (s : State) :
    exec (.ldkey idx w) s = .next { s with rsp := some ⟨.error .index, 0⟩ } :=
  withIndex_of_le h fun j => (s.writeKeyWord j w).clearKV.ok 0

/-- RDW in range with a valid schedule answers the schedule word (44 R109). -/
theorem exec_rdw_of_valid {s : State} {idx : Nat} (h : idx < 44) (hKV : s.KV = true) :
    exec (.rdw idx) s = .next { s with rsp := some ⟨.ok, s.W[idx]⟩ } :=
  (withIndex_of_lt h _).trans (withKey_of_valid hKV (s.ok s.W[idx]))

/-- RDW at an index above 43 answers `E_INDEX`, with or without a key (60 R138, R141). -/
theorem exec_rdw_of_le {idx : Nat} (h : 44 ≤ idx) (s : State) :
    exec (.rdw idx) s = .next { s with rsp := some ⟨.error .index, 0⟩ } :=
  withIndex_of_le h _

/-- RDW in range without a valid schedule answers `E_NOKEY` (60 R140). -/
theorem exec_rdw_of_invalid {s : State} {idx : Nat} (h : idx < 44) (hKV : s.KV = false) :
    exec (.rdw idx) s = .next { s with rsp := some ⟨.error .noKey, 0⟩ } :=
  (withIndex_of_lt h _).trans (withKey_of_invalid hKV _)

/-- Settles O51: in range the key word is replaced and `KV` cleared, out of range the answer is `E_INDEX`. -/
theorem ldkeyLoadsOneWordAndClearsKv : Obligations.LdkeyLoadsOneWordAndClearsKv := by
  unfold Obligations.LdkeyLoadsOneWordAndClearsKv
  refine ⟨encodedWI_of_decode decode_ldkey, ?_, ?_⟩
  · intro s idx w hidx
    have hlt : idx < 4 := Nat.lt_succ_of_le hidx
    refine ⟨_, exec_ldkey_of_lt hlt w s, rfl, fun j => ?_⟩
    exact (Vector.getElem_set hlt j.isLt).trans (if_congr eq_comm rfl rfl)
  · intro s idx w hidx
    exact exec_ldkey_of_le hidx w s

/-- Settles O54: the index is checked before the key, and the first four words of a valid schedule are the key. -/
theorem rdwReadsOneScheduleWord : Obligations.RdwReadsOneScheduleWord := by
  unfold Obligations.RdwReadsOneScheduleWord
  refine ⟨encodedI_of_decode decode_rdw, ?_, ?_, ?_⟩
  · intro s i hKV
    exact exec_rdw_of_valid i.isLt hKV
  · intro s idx
    constructor
    · intro hidx
      exact exec_rdw_of_le hidx s
    · intro hidx hKV
      exact exec_rdw_of_invalid (Nat.lt_succ_of_le hidx) hKV
  · intro s j hvalid hKV
    have hkey : s.W[j.val] = s.K[j] := by rw [hvalid hKV, expandKey_getElem_key]
    rw [exec_rdw_of_valid (by omega) hKV, hkey]

end Sys2Proof.Machine

/-! PROOFS. KEYEXPAND (44 R103, R108): every word of an expansion from the fifth on obeys the recurrence. -/

namespace Sys2Proof.Machine

/-- Four words and the `n` that the expansion makes from them, the first of these at position `i` (44 R103). -/
def expandWords (n i : Nat) (w0 w1 w2 w3 : Word) : List Word := w0 :: w1 :: w2 :: w3 :: expandFrom n i w0 w1 w2 w3

theorem length_expandWords (n i : Nat) (w0 w1 w2 w3 : Word) : (expandWords n i w0 w1 w2 w3).length = n + 4 := by
  simp only [expandWords, List.length_cons, expandFrom_length]

/-- The schedule of a key is its four words and the forty made from them. -/
theorem expandKey_getElem (k : Key) {i : Nat} (h : i < 44) : (expandKey k)[i] =
    (expandWords 40 4 k[0] k[1] k[2] k[3])[i]'(by rw [length_expandWords]; exact h) := rfl

/-- Without the oldest word it is the expansion by one word less, from the four words after that one. -/
theorem expandWords_succ (n i : Nat) (w0 w1 w2 w3 : Word) :
    expandWords (n + 1) i w0 w1 w2 w3 = w0 :: expandWords n (i + 1) w1 w2 w3 (w0 ^^^ expandTemp i w3) := rfl

/-- Each word made is the one four before it and the temp of the one before it (44 R103). -/
theorem expandWords_recurrence {n i : Nat} {w0 w1 w2 w3 : Word} {m : Nat} (h : m < n) :
    (expandWords n i w0 w1 w2 w3)[m + 4]'(by rw [length_expandWords]; omega) =
      (expandWords n i w0 w1 w2 w3)[m]'(by rw [length_expandWords]; omega) ^^^
        expandTemp (i + m) ((expandWords n i w0 w1 w2 w3)[m + 3]'(by rw [length_expandWords]; omega)) := by
  induction m generalizing n i w0 w1 w2 w3 with
  | zero =>
    obtain ⟨n, rfl⟩ := Nat.exists_eq_succ_of_ne_zero (Nat.ne_zero_of_lt h)
    rfl
  | succ m ih =>
    obtain ⟨n, rfl⟩ := Nat.exists_eq_succ_of_ne_zero (Nat.ne_zero_of_lt h)
    simp only [expandWords_succ, List.getElem_cons_succ]
    rw [ih (Nat.lt_of_succ_lt_succ h), Nat.add_right_comm i 1 m]
    rfl

/-- The recurrence of the schedule from word 4 on (44 R103). -/
theorem expandKey_recurrence (k : Key) {i : Nat} (h4 : 4 ≤ i) (h : i < 44) :
    (expandKey k)[i] = (expandKey k)[i - 4] ^^^ expandTemp i (expandKey k)[i - 1] := by
  obtain ⟨m, rfl⟩ := Nat.exists_eq_add_of_le' h4
  simp only [expandKey_getElem, Nat.add_sub_cancel, show m + 4 - 1 = m + 3 from rfl]
  rw [expandWords_recurrence (by omega : m < 40), Nat.add_comm 4 m]

/-- The temp of a word from 4 on: at every fourth word the round constant has a value (44 R103). -/
theorem expandTemp_of_four_le {i : Nat} (h : 4 ≤ i) (prev : Word) : expandTemp i prev =
    if i % 4 = 0 then subWord (rotWord prev) ^^^ word (gfPow 0x02 (i / 4 - 1)) 0 0 0 else prev := by
  rw [expandTemp, rcon?_of_pos (by omega : 1 ≤ i / 4)]
  rfl

theorem exec_keyexpand (s : State) :
    exec .keyexpand s = .next { s with W := expandKey s.K, KV := true, rsp := okZero } := rfl

/-- Settles O52: KEYEXPAND leaves the expansion of the key, whose words obey the recurrence; the key is still there, so
repeating it writes the same. -/
theorem keyexpandWritesTheSchedule : Obligations.KeyexpandWritesTheSchedule := by
  unfold Obligations.KeyexpandWritesTheSchedule
  refine ⟨encodedN_of_decode decode_keyexpand, ?_, ?_, ?_⟩
  · intro s
    refine ⟨_, exec_keyexpand s, rfl, rfl, expandKey_getElem_key s.K, ?_, exec_keyexpand _⟩
    intro i hi
    rw [← expandTemp_of_four_le hi]
    exact expandKey_recurrence s.K hi i.isLt
  · decide
  · decide +kernel

end Sys2Proof.Machine

/-! PROOFS. The product of two Words is associative and has the polynomial 1 as its unit, under either order (42 R71);
the two constants of the column product are inverse to each other (42 R72). -/

namespace Sys2Proof.Machine

open Sys2Proof.Config (WordOrder)

/-- The sum over `j` of what stands at `j + c` is the sum: the terms come in another order. -/
theorem xor4_add (c : Fin 4) (t : Fin 4 → Byte) : xor4 (fun j => t (j + c)) = xor4 t := by
  calc xor4 (fun j => t (j + c))
      = xor4 (fun j => t (0 - j + c)) := (xor4_sub 0 fun j => t (j + c)).symm
    _ = xor4 (fun j => t (c - j)) := by simp only [zero_sub, neg_add_eq_sub]
    _ = xor4 t := xor4_sub c t

/-- The two sums of a double sum can be exchanged. -/
theorem xor4_xor4_comm (t : Fin 4 → Fin 4 → Byte) :
    xor4 (fun i => xor4 fun j => t i j) = xor4 fun j => xor4 fun i => t i j := by
  simp only [xor4]; ac_rfl

theorem gfMul_xor4 (a : Byte) (t : Fin 4 → Byte) : gfMul a (xor4 t) = xor4 fun j => gfMul a (t j) := by
  simp only [xor4, gfMul_xor]

theorem xor4_gfMul (t : Fin 4 → Byte) (b : Byte) : gfMul (xor4 t) b = xor4 fun j => gfMul (t j) b := by
  simp only [xor4, xor_gfMul]

/-- Of a sum whose terms are 0 but for one, that one is left. -/
theorem xor4_ite (m : Fin 4) (t : Fin 4 → Byte) : xor4 (fun j => if j = m then t j else 0) = t m := by
  match m with
  | 0 | 1 | 2 | 3 => simp [xor4]

/-- Both sides add, for each byte `i` of `w` and each byte `k` of `v`, the same product of three bytes: on the left
`k` stands at `j + rho - i`. -/
theorem wordMul_assoc (ord : WordOrder) (w v u : Word) :
    wordMul ord (wordMul ord w v) u = wordMul ord w (wordMul ord v u) := by
  refine word_ext fun m => ?_
  have hu (i k : Fin 4) : m + rho ord - (k + (i - rho ord)) = m + rho ord - i + rho ord - k := by abel
  have hv (i k : Fin 4) : k + (i - rho ord) + rho ord - i = k := by abel
  have hterm (i : Fin 4) :
      xor4 (fun j => gfMul (gfMul (byte u (m + rho ord - j)) (byte v (j + rho ord - i))) (byte w i)) =
        xor4 fun k => gfMul (gfMul (byte u (m + rho ord - i + rho ord - k)) (byte v k)) (byte w i) := by
    rw [← xor4_add (i - rho ord)]
    simp only [hu, hv]
  simp only [byte_wordMul, gfMul_xor4, xor4_gfMul, ← gfMul_assoc]
  rw [xor4_xor4_comm]
  simp only [hterm]

/-- The Word of the polynomial 1 (42 R70). -/
def oneWord (ord : WordOrder) : Word := wordOfPoly ord #v[1, 0, 0, 0]

/-- The byte of the polynomial 1 at `k` is its constant coefficient where byte `k` carries x^0, which is at `rho`. -/
theorem byte_oneWord (ord : WordOrder) (k : Fin 4) : byte (oneWord ord) k = if k = rho ord then 1 else 0 := by
  cases ord <;> revert k <;> decide

/-- Of each sum the term at `j = m` is left. -/
theorem wordMul_oneWord (ord : WordOrder) (w : Word) : wordMul ord w (oneWord ord) = w := by
  refine word_ext fun m => ?_
  have hone (j : Fin 4) : gfMul (byte (oneWord ord) (m + rho ord - j)) (byte w j) = if j = m then byte w j else 0 := by
    have hiff : m + rho ord - j = rho ord ↔ j = m := by
      rw [add_sub_right_comm, add_eq_right, sub_eq_zero, eq_comm]
    rw [byte_oneWord, if_congr hiff rfl rfl, apply_ite (gfMul · (byte w j)), one_gfMul, zero_gfMul]
  rw [byte_wordMul]
  simp only [hone]
  exact xor4_ite m (byte w)

/-- The product of the two constants is the polynomial 1 (42 R72). -/
theorem wordMul_fwdConst_invConst (ord : WordOrder) : wordMul ord (fwdConst ord) (invConst ord) = oneWord ord := by
  cases ord <;> decide

end Sys2Proof.Machine

/-! PROOFS. Each transform of the State and its inverse cancel (43 R80 to R85). -/

namespace Sys2Proof.Machine

open Sys2Proof.Config (WordOrder)

theorem mulColumns_getElem (ord : WordOrder) (k : Word) (T : Block) (c r : Fin 4) :
    (mulColumns ord k T)[c][r] = byte (wordMul ord (wordOfColumn T[c]) k) r := blockOf_get _ c r

/-- Column `c` of the product is the product of column `c`. -/
theorem wordOfColumn_mulColumns (ord : WordOrder) (k : Word) (T : Block) (c : Fin 4) :
    wordOfColumn (mulColumns ord k T)[c] = wordMul ord (wordOfColumn T[c]) k := by
  refine word_ext fun r => ?_
  rw [byte_wordOfColumn]
  exact mulColumns_getElem ord k T c r

/-- Every column times two Words whose product is 1 is the column. -/
theorem mulColumns_mulColumns {ord : WordOrder} {k k' : Word} (h : wordMul ord k k' = oneWord ord) (T : Block) :
    mulColumns ord k' (mulColumns ord k T) = T := by
  refine block_ext fun c r => ?_
  rw [mulColumns_getElem, wordOfColumn_mulColumns, wordMul_assoc, h, wordMul_oneWord, byte_wordOfColumn]

theorem invMixColumns_mixColumns (ord : WordOrder) (T : Block) : invMixColumns ord (mixColumns ord T) = T :=
  mulColumns_mulColumns (wordMul_fwdConst_invConst ord) T

theorem mixColumns_invMixColumns (ord : WordOrder) (T : Block) : mixColumns ord (invMixColumns ord T) = T :=
  mulColumns_mulColumns ((wordMul_comm ..).trans (wordMul_fwdConst_invConst ord)) T

theorem sbox_invSbox (b : Byte) : sbox (invSbox b) = b := by
  rw [invSbox, sbox, invOrZero_invOrZero, affine_invAffine]

theorem invSubBytes_subBytes (T : Block) : invSubBytes (subBytes T) = T := by
  refine block_ext fun c r => ?_
  rw [invSubBytes_getElem, subBytes_getElem, invSbox_sbox]

theorem subBytes_invSubBytes (T : Block) : subBytes (invSubBytes T) = T := by
  refine block_ext fun c r => ?_
  rw [subBytes_getElem, invSubBytes_getElem, sbox_invSbox]

/-- A row moved by `r` columns and back is where it was. -/
theorem invShiftRows_shiftRows (T : Block) : invShiftRows (shiftRows T) = T := by
  refine block_ext fun c r => ?_
  have hback : (c - r).val = (c.val + 4 - r.val) % 4 := by omega
  have hforth : c.val = ((c - r).val + r.val) % 4 := by omega
  rw [invShiftRows_getElem _ hback, shiftRows_getElem _ hforth]

/-- A row moved back by `r` columns and forth is where it was. -/
theorem shiftRows_invShiftRows (T : Block) : shiftRows (invShiftRows T) = T := by
  refine block_ext fun c r => ?_
  have hforth : (c + r).val = (c.val + r.val) % 4 := Fin.val_add c r
  have hback : c.val = ((c + r).val + 4 - r.val) % 4 := by omega
  rw [shiftRows_getElem _ hforth, invShiftRows_getElem _ hback]

end Sys2Proof.Machine

/-! PROOFS. The round trip of the two sequences of rounds (45 R120, R121, R124). The rounds of the two do not pair off
as they stand: a round of decryption begins with the inverse of the substitution and the shift with which the NEXT round
of encryption begins. So what a pair of rounds keeps is the State after that substitution and shift. -/

namespace Sys2Proof.Machine

open Sys2Proof.Config (WordOrder)

/-- If undoing one step `e` by `d` keeps the value of `f`, then so does undoing a list of steps from its end. -/
theorem foldl_reverse_of_step {α β κ : Type} {e : α → κ → α} {d : β → κ → β} {f : α → β}
    (h : ∀ x k, d (f (e x k)) k = f x) (l : List κ) (x : α) : l.reverse.foldl d (f (l.foldl e x)) = f x := by
  rw [List.foldl_reverse]
  induction l generalizing x with
  | nil => rfl
  | cons k l ih => rw [List.foldr_cons, List.foldl_cons, ih, h]

variable (ord : WordOrder) (w : Schedule)

/-- A round of decryption undoes a round of encryption under the substitution and the shift. -/
theorem decryptRound_encryptRound (T : Block) (k : Fin 11) :
    decryptRound ord w (shiftRows (subBytes (encryptRound ord w T k))) k = shiftRows (subBytes T) := by
  simp only [decryptRound, encryptRound, invShiftRows_shiftRows, invSubBytes_subBytes, ark_ark,
    invMixColumns_mixColumns]

/-- A round of encryption undoes a round of decryption under the inverse shift and substitution. -/
theorem encryptRound_decryptRound (T : Block) (k : Fin 11) :
    encryptRound ord w (invSubBytes (invShiftRows (decryptRound ord w T k))) k = invSubBytes (invShiftRows T) := by
  simp only [decryptRound, encryptRound, subBytes_invSubBytes, shiftRows_invShiftRows, mixColumns_invMixColumns,
    ark_ark]

/-- Decryption undoes encryption, whether or not the Words came from a key (45 R124). -/
theorem decryptBlock_encryptBlock (T : Block) : decryptBlock ord (encryptBlock ord T w) w = T := by
  have hrounds := foldl_reverse_of_step (f := fun T => shiftRows (subBytes T))
    (decryptRound_encryptRound ord w) fullRounds (ark T w 0)
  rw [decryptBlock, encryptBlock, ark_ark, hrounds, invShiftRows_shiftRows, invSubBytes_subBytes, ark_ark]

/-- Encryption undoes decryption, whether or not the Words came from a key (45 R124). -/
theorem encryptBlock_decryptBlock (T : Block) : encryptBlock ord (decryptBlock ord T w) w = T := by
  have hrounds := foldl_reverse_of_step (f := fun T => invSubBytes (invShiftRows T))
    (encryptRound_decryptRound ord w) fullRounds.reverse (ark T w 10)
  rw [List.reverse_reverse] at hrounds
  rw [encryptBlock, decryptBlock, ark_ark, hrounds, subBytes_invSubBytes, shiftRows_invShiftRows, ark_ark]

end Sys2Proof.Machine

/-! PROOFS. ENCRYPT and DECRYPT (45 R122, R123). -/

namespace Sys2Proof.Machine

section Cipher

variable {s t : State}

theorem exec_encrypt_of_valid (h : s.KV = true) :
    exec .encrypt s = .next { s with S := encryptBlock .asc s.S s.W, rsp := okZero } := withKey_of_valid h _

theorem exec_decrypt_of_valid (h : s.KV = true) :
    exec .decrypt s = .next { s with S := decryptBlock .asc s.S s.W, rsp := okZero } := withKey_of_valid h _

/-- ENCRYPT without a valid schedule answers `E_NOKEY` (60 R140). -/
theorem exec_encrypt_of_invalid (h : s.KV = false) :
    exec .encrypt s = .next { s with rsp := some ⟨.error .noKey, 0⟩ } := withKey_of_invalid h _

/-- DECRYPT without a valid schedule answers `E_NOKEY` (60 R140). -/
theorem exec_decrypt_of_invalid (h : s.KV = false) :
    exec .decrypt s = .next { s with rsp := some ⟨.error .noKey, 0⟩ } := withKey_of_invalid h _

/-- DECRYPT after ENCRYPT restores the state but for the response (45 R123). -/
theorem exec_decrypt_of_exec_encrypt (h : s.KV = true) (ht : exec .encrypt s = .next t) :
    exec .decrypt t = .next { s with rsp := okZero } := by
  obtain rfl := Host.Outcome.next.inj ((exec_encrypt_of_valid h).symm.trans ht)
  rw [exec_decrypt_of_valid, decryptBlock_encryptBlock]
  exact h

/-- ENCRYPT after DECRYPT restores the state but for the response (45 R123). -/
theorem exec_encrypt_of_exec_decrypt (h : s.KV = true) (ht : exec .decrypt s = .next t) :
    exec .encrypt t = .next { s with rsp := okZero } := by
  obtain rfl := Host.Outcome.next.inj ((exec_decrypt_of_valid h).symm.trans ht)
  rw [exec_encrypt_of_valid, encryptBlock_decryptBlock]
  exact h

end Cipher

set_option maxRecDepth 10000 in
/-- The example of 45 R122: the State and the key of the rules, encrypted. The evaluation unfolds ten rounds one inside
the other, deeper than the default limit. -/
theorem encryptBlock_example : encryptBlock .asc (hexBlock 0x3243F6A8885A308D313198A2E0370734)
    (expandKey #v[0x2B7E1516#32, 0x28AED2A6#32, 0xABF71588#32, 0x09CF4F3C#32]) =
      hexBlock 0x3925841D02DC09FBDC118597196A0B32 := by decide

/-- Settles O55: with a key the commands are the two sequences on `S`, which undo each other, so that the example of
DECRYPT is that of ENCRYPT read backwards. -/
theorem encryptAndDecryptTransformS : Obligations.EncryptAndDecryptTransformS := by
  unfold Obligations.EncryptAndDecryptTransformS
  refine ⟨encodedN_of_decode decode_encrypt, encodedN_of_decode decode_decrypt, ?_, ?_, ?_, ?_, ?_⟩
  · intro s hKV
    exact ⟨exec_encrypt_of_valid hKV, exec_decrypt_of_valid hKV⟩
  · intro s hKV
    exact ⟨exec_encrypt_of_invalid hKV, exec_decrypt_of_invalid hKV⟩
  · intro s t hKV ht
    exact exec_decrypt_of_exec_encrypt hKV ht
  · intro s t hKV ht
    exact exec_encrypt_of_exec_decrypt hKV ht
  · intro s t hKV hW
    constructor
    · intro hS ht
      rw [S_eq_of_exec (exec_encrypt_of_valid hKV) ht, hS, hW, encryptBlock_example]
    · intro hS ht
      rw [S_eq_of_exec (exec_decrypt_of_valid hKV) ht, hS, hW, ← encryptBlock_example, decryptBlock_encryptBlock]

end Sys2Proof.Machine

/-! PROOFS. Blocks do not depend on each other (45 R126, 20 R34). -/

namespace Sys2Proof.Machine

/-- Commands that complete are followed by the rest, from the state they leave (20 R29). -/
theorem execAll_append_of_next {is : List Instr} {s t : State} (h : execAll is s = .next t) (js : List Instr) :
    execAll (is ++ js) s = execAll js t := by
  induction is generalizing s with
  | nil =>
    obtain rfl : s = t := Host.Outcome.next.inj h
    rfl
  | cons i is ih =>
    rw [execAll] at h
    rw [List.cons_append, execAll]
    cases hi : exec i s with
    | next u => exact ih (by rwa [hi] at h)
    | fault r => rw [hi] at h; cases h
    | refused r => rw [hi] at h; cases h

/-- What follows LDBLK starts from the State of the block's bytes (30 R45). -/
theorem execAll_ldblk_append (h : Vector Byte 16) (is : List Instr) (s : State) :
    execAll (ldblk h ++ is) s = execAll is { s with S := blockOfBytes h, rsp := okZero } :=
  execAll_append_of_next (execAll_ldblk h s) is

/-- Settles O58: what the commands leave in `S` names `S` and `W` alone, and the state that LDBLK leaves does not name
the earlier `S` and response. -/
theorem blocksAreIndependent : Obligations.BlocksAreIndependent := by
  unfold Obligations.BlocksAreIndependent
  constructor
  · intro s s' t hKV hKV' hS hW
    constructor
    · intro ht
      refine ⟨_, exec_encrypt_of_valid hKV', ?_⟩
      rw [S_eq_of_exec (exec_encrypt_of_valid hKV) ht, ← hS, ← hW]
    · intro ht
      refine ⟨_, exec_decrypt_of_valid hKV', ?_⟩
      rw [S_eq_of_exec (exec_decrypt_of_valid hKV) ht, ← hS, ← hW]
  · intro s T x h rest
    rw [execAll_ldblk_append, execAll_ldblk_append]

end Sys2Proof.Machine

/-! PROOFS. A command that answers an error leaves everything but the response as it was (60 R142). -/

namespace Sys2Proof.Machine

/-- `f`, the outcome of a command in `s`, is a completion with OK or an error raised in `s` itself (60 R135). -/
def OkOrRaises (s : State) (f : Result) : Prop := (∃ u v, f = State.ok u v) ∨ ∃ e, f = s.raise e

namespace OkOrRaises

variable {s : State}

theorem ok (u : State) (v : Word) : OkOrRaises s (u.ok v) := .inl ⟨u, v, rfl⟩

theorem raise (e : Err) : OkOrRaises s (s.raise e) := .inr ⟨e, rfl⟩

theorem withKey {f : Result} (h : OkOrRaises s f) : OkOrRaises s (s.withKey f) := by
  rcases withKey_cases s f with ⟨-, hf⟩ | ⟨-, hf⟩
  · rwa [hf]
  · rw [hf]
    exact raise .noKey

theorem withIndex {n idx : Nat} {f : Fin n → Result} (h : ∀ j, OkOrRaises s (f j)) :
    OkOrRaises s (s.withIndex n idx f) := by
  rcases withIndex_cases s n idx f with ⟨hlt, hf⟩ | ⟨-, hf⟩
  · rw [hf]
    exact h ⟨idx, hlt⟩
  · rw [hf]
    exact raise .index

/-- An error response comes from the error raised, which changes `rsp` alone. -/
theorem eq_of_error {f : Result} {t : State} {e : Err} {r : Word} (h : OkOrRaises s f) (ht : f = .next t)
    (hr : t.rsp = some ⟨.error e, r⟩) : t = { s with rsp := some ⟨.error e, 0⟩ } := by
  rcases h with ⟨u, v, hf⟩ | ⟨e', hf⟩
  · obtain rfl := Host.Outcome.next.inj (hf.symm.trans ht)
    cases hr
  · obtain rfl := Host.Outcome.next.inj (hf.symm.trans ht)
    cases hr
    rfl

end OkOrRaises

/-- Every command ends in one of the two ways: what checks an index, the key or the domain raises before anything is
written, and the rest completes (60 R136, R142). -/
theorem exec_okOrRaises (i : Instr) (s : State) : OkOrRaises s (exec i s) := by
  cases i with
  | gfinv x =>
    change OkOrRaises s (execGfinv x s)
    unfold execGfinv
    split
    · exact .raise .domain
    · exact .ok _ _
  | rcon x =>
    change OkOrRaises s (execRcon x s)
    unfold execRcon
    split
    · exact .raise .domain
    · exact .ok _ _
  | addroundkey idx => exact .withIndex fun _ => .withKey (.ok _ _)
  | rdw idx => exact .withIndex fun _ => .withKey (.ok _ _)
  | lds idx w => exact .withIndex fun _ => .ok _ _
  | rds idx => exact .withIndex fun _ => .ok _ _
  | ldkey idx w => exact .withIndex fun _ => .ok _ _
  | encrypt => exact .withKey (.ok _ _)
  | decrypt => exact .withKey (.ok _ _)
  | _ => exact .ok _ _

/-- A command answered with an error leaves all but the response as it was, and `r` is 0 (60 R142). -/
theorem eq_of_exec_error {i : Instr} {s t : State} {e : Err} {r : Word} (ht : exec i s = .next t)
    (hr : t.rsp = some ⟨.error e, r⟩) : t = { s with rsp := some ⟨.error e, 0⟩ } :=
  (exec_okOrRaises i s).eq_of_error ht hr

end Sys2Proof.Machine

/-! PROOFS. RDSTAT (46 R130). -/

namespace Sys2Proof.Machine

theorem exec_rdstat_of_valid {s : State} (h : s.KV = true) :
    exec .rdstat s = .next { s with rsp := some ⟨.ok, 1#32⟩ } := by
  rw [← State.status_of_valid s h]
  rfl

theorem exec_rdstat_of_invalid {s : State} (h : s.KV = false) :
    exec .rdstat s = .next { s with rsp := some ⟨.ok, 0#32⟩ } := by
  rw [← State.status_of_invalid s h]
  rfl

/-- RDSTAT does not look at the response that stands (46 R130). -/
theorem exec_rdstat_ignores_rsp (s : State) (x : Option Response) :
    exec .rdstat { s with rsp := x } = exec .rdstat s := rfl

/-- Settles O18: the answer is 1 or 0 by `KV`, which KEYEXPAND sets and reset and LDKEY clear, and an error changes the
response alone, which RDSTAT does not look at. -/
theorem rdstatReturnsStatus : Obligations.RdstatReturnsStatus := by
  unfold Obligations.RdstatReturnsStatus
  refine ⟨encodedN_of_decode decode_rdstat, ?_, exec_rdstat_of_invalid rfl, ?_, ?_, ?_⟩
  · intro s
    split
    next hKV => exact exec_rdstat_of_valid hKV
    next hKV => exact exec_rdstat_of_invalid (Bool.eq_false_of_not_eq_true hKV)
  · intro s t ht
    obtain rfl := Host.Outcome.next.inj ((exec_keyexpand s).symm.trans ht)
    exact exec_rdstat_of_valid rfl
  · intro s t idx w hidx ht
    obtain rfl := Host.Outcome.next.inj ((exec_ldkey_of_lt (Nat.lt_succ_of_le hidx) w s).symm.trans ht)
    exact exec_rdstat_of_invalid rfl
  · intro i s t e r ht hr
    rw [eq_of_exec_error ht hr]
    exact exec_rdstat_ignores_rsp s _

end Sys2Proof.Machine

/-! PROOFS. The order of checks (30 R48, 60 R141): the first check that fails is answered with its error, and a command
that passes them all completes. -/

namespace Sys2Proof.Machine

/-- The outcome is a next state with a response of this status (60 R135). -/
def Answers (f : Result) (st : Status) : Prop := ∃ t x, f = .next t ∧ t.rsp = some x ∧ x.status = st

/-- An outcome has one status. -/
theorem Answers.status_eq {f : Result} {st st' : Status} {t : State} {r : Word} (h : Answers f st) (ht : f = .next t)
    (hr : t.rsp = some ⟨st', r⟩) : st' = st := by
  obtain ⟨u, x, hu, hx, rfl⟩ := h
  obtain rfl := Host.Outcome.next.inj (hu.symm.trans ht)
  obtain rfl := Option.some.inj (hx.symm.trans hr)
  rfl

section Checks

variable {i : Instr} {s : State}

/-- The first check: the index (60 R138). -/
theorem exec_of_indexOutOfRange (h : i.indexInRange = false) (s : State) :
    exec i s = .next { s with rsp := some ⟨.error .index, 0⟩ } := by
  cases i with
  | lds idx w => exact exec_lds_of_le (Nat.lt_of_not_le (of_decide_eq_false h)) w s
  | rds idx => exact exec_rds_of_le (Nat.lt_of_not_le (of_decide_eq_false h)) s
  | ldkey idx w => exact exec_ldkey_of_le (Nat.lt_of_not_le (of_decide_eq_false h)) w s
  | rdw idx => exact exec_rdw_of_le (Nat.lt_of_not_le (of_decide_eq_false h)) s
  | addroundkey idx => exact exec_addroundkey_of_le (Nat.lt_of_not_le (of_decide_eq_false h)) s
  | _ => cases h

/-- A command outside the domain is one of the two with operand 0 (60 R139). -/
theorem inDomain_eq_false_iff : i.inDomain = false ↔ i = .gfinv 0 ∨ i = .rcon 0 := by
  cases i <;> simp [Instr.inDomain]

/-- The second check: the domain (60 R139). -/
theorem exec_of_notInDomain (h : i.inDomain = false) (s : State) :
    exec i s = .next { s with rsp := some ⟨.error .domain, 0⟩ } := by
  rcases inDomain_eq_false_iff.mp h with rfl | rfl
  · exact exec_gfinv_zero s
  · exact exec_rcon_zero s

/-- The third check: the key (60 R140). -/
theorem exec_of_noKey (hidx : i.indexInRange = true) (h : i.needsKey = true) (hKV : s.KV = false) :
    exec i s = .next { s with rsp := some ⟨.error .noKey, 0⟩ } := by
  cases i with
  | addroundkey idx => exact exec_addroundkey_of_invalid (Nat.lt_succ_of_le (of_decide_eq_true hidx)) hKV
  | rdw idx => exact exec_rdw_of_invalid (Nat.lt_succ_of_le (of_decide_eq_true hidx)) hKV
  | encrypt => exact exec_encrypt_of_invalid hKV
  | decrypt => exact exec_decrypt_of_invalid hKV
  | _ => cases h

/-- A command that passes the checks completes (60 R136). -/
theorem exec_answers_ok (hidx : i.indexInRange = true) (hdom : i.inDomain = true)
    (hkey : i.needsKey = true → s.KV = true) : Answers (exec i s) .ok := by
  cases i with
  | lds idx w => exact ⟨_, _, exec_lds_of_lt (Nat.lt_succ_of_le (of_decide_eq_true hidx)) w s, rfl, rfl⟩
  | rds idx => exact ⟨_, _, exec_rds_of_lt (Nat.lt_succ_of_le (of_decide_eq_true hidx)) s, rfl, rfl⟩
  | ldkey idx w => exact ⟨_, _, exec_ldkey_of_lt (Nat.lt_succ_of_le (of_decide_eq_true hidx)) w s, rfl, rfl⟩
  | rdw idx => exact ⟨_, _, exec_rdw_of_valid (Nat.lt_succ_of_le (of_decide_eq_true hidx)) (hkey rfl), rfl, rfl⟩
  | addroundkey idx =>
    exact ⟨_, _, exec_addroundkey_of_valid (hkey rfl) ⟨idx, Nat.lt_succ_of_le (of_decide_eq_true hidx)⟩, rfl, rfl⟩
  | encrypt => exact ⟨_, _, exec_encrypt_of_valid (hkey rfl), rfl, rfl⟩
  | decrypt => exact ⟨_, _, exec_decrypt_of_valid (hkey rfl), rfl, rfl⟩
  | gfinv x =>
    obtain ⟨b, hb, -⟩ := gfInv_spec (of_decide_eq_true hdom)
    exact ⟨_, _, exec_gfinv_of_eq hb s, rfl, rfl⟩
  | rcon x =>
    have hpos : 1 ≤ x.toNat :=
      Nat.one_le_iff_ne_zero.mpr fun h => of_decide_eq_true hdom (BitVec.eq_of_toNat_eq h)
    exact ⟨_, _, exec_rcon_of_eq (rcon?_of_pos hpos) s, rfl, rfl⟩
  | _ => exact ⟨_, _, rfl, rfl, rfl⟩

/-- What the order of checks answers, one case for each first check that fails (60 R141). -/
theorem statusByChecks_cases (i : Instr) (kv : Bool) :
    (i.indexInRange = false ∧ i.statusByChecks kv = .error .index) ∨
    (i.indexInRange = true ∧ i.inDomain = false ∧ i.statusByChecks kv = .error .domain) ∨
    (i.indexInRange = true ∧ i.inDomain = true ∧ i.needsKey = true ∧ kv = false ∧
      i.statusByChecks kv = .error .noKey) ∨
    (i.indexInRange = true ∧ i.inDomain = true ∧ (i.needsKey = true → kv = true) ∧ i.statusByChecks kv = .ok) := by
  cases hidx : i.indexInRange with
  | false => simp [Instr.statusByChecks, hidx]
  | true =>
    cases hdom : i.inDomain with
    | false => simp [Instr.statusByChecks, hidx, hdom]
    | true =>
      cases kv with
      | true => simp [Instr.statusByChecks, hidx, hdom]
      | false => cases hkey : i.needsKey <;> simp [Instr.statusByChecks, hidx, hdom, hkey]

/-- The status of a command is that of the first check that fails (60 R141). -/
theorem exec_answers_statusByChecks (i : Instr) (s : State) : Answers (exec i s) (i.statusByChecks s.KV) := by
  rcases statusByChecks_cases i s.KV with
    ⟨hidx, hst⟩ | ⟨-, hdom, hst⟩ | ⟨hidx, -, hkey, hKV, hst⟩ | ⟨hidx, hdom, hkey, hst⟩
  · exact ⟨_, _, exec_of_indexOutOfRange hidx s, rfl, hst.symm⟩
  · exact ⟨_, _, exec_of_notInDomain hdom s, rfl, hst.symm⟩
  · exact ⟨_, _, exec_of_noKey hidx hkey hKV, rfl, hst.symm⟩
  · rw [hst]
    exact exec_answers_ok hidx hdom hkey

end Checks

section Statuses

variable {i : Instr} {kv : Bool}

/-- No check answers `E_ILLEGAL`: a command is past the decoder (30 R48). -/
theorem statusByChecks_ne_illegal : i.statusByChecks kv ≠ .error .illegal := by
  rcases statusByChecks_cases i kv with ⟨-, h⟩ | ⟨-, -, h⟩ | ⟨-, -, -, -, h⟩ | ⟨-, -, -, h⟩
  all_goals simp [h]

theorem indexOutOfRange_of_statusByChecks (h : i.statusByChecks kv = .error .index) : i.indexInRange = false := by
  rcases statusByChecks_cases i kv with ⟨hidx, -⟩ | ⟨-, -, hst⟩ | ⟨-, -, -, -, hst⟩ | ⟨-, -, -, hst⟩
  · exact hidx
  all_goals simp [hst] at h

theorem notInDomain_of_statusByChecks (h : i.statusByChecks kv = .error .domain) : i.inDomain = false := by
  rcases statusByChecks_cases i kv with ⟨-, hst⟩ | ⟨-, hdom, -⟩ | ⟨-, -, -, -, hst⟩ | ⟨-, -, -, hst⟩
  case inr.inl => exact hdom
  all_goals simp [hst] at h

end Statuses

/-- A presented word that decodes to no command is answered `E_ILLEGAL` (60 R137). -/
theorem answersIllegal_of_not_ok {c : CmdWord} (h : ∀ i, decode c ≠ .ok i) (s : State) : AnswersIllegal s c := by
  cases hd : decode c with
  | error e => exact step_present_error hd
  | ok i => exact absurd hd (h i)

/-- Settles O12: the status is that of the first check that fails, and the examples fail the index check or the
decoder's check of `a`. -/
theorem statusFollowsTheOrderOfChecks : Obligations.StatusFollowsTheOrderOfChecks := by
  unfold Obligations.StatusFollowsTheOrderOfChecks
  refine ⟨exec_answers_statusByChecks, ?_, ?_, ?_, ?_⟩
  · intro s c h
    exact answersIllegal_of_not_ok h s
  · intro s idx _ hidx
    exact exec_addroundkey_of_le hidx s
  · intro s idx _ hidx
    exact exec_rdw_of_le hidx s
  · intro s a ha
    exact (encodedI_of_decode decode_rdw s).2 a 50#32 (.inl ha)

/-- Settles O14: each command with an index answers `E_INDEX` from its bound on, and that status is the failed check. -/
theorem indexOutOfRangeAnswersIndexError : Obligations.IndexOutOfRangeAnswersIndexError := by
  unfold Obligations.IndexOutOfRangeAnswersIndexError
  intro s idx w
  refine ⟨fun h => exec_lds_of_le h w s, fun h => exec_rds_of_le h s, fun h => exec_ldkey_of_le h w s,
    fun h => exec_rdw_of_le h s, fun h => exec_addroundkey_of_le h s, ?_⟩
  intro i t r ht hr
  exact indexOutOfRange_of_statusByChecks ((exec_answers_statusByChecks i s).status_eq ht hr).symm

/-- Settles O15: the two commands fail the check of the domain at 0, and no command fails it elsewhere. -/
theorem domainErrorExactlyAtZero : Obligations.DomainErrorExactlyAtZero := by
  unfold Obligations.DomainErrorExactlyAtZero
  intro s
  refine ⟨exec_gfinv_zero s, exec_rcon_zero s, ?_⟩
  intro i t r ht hr
  have hdom := notInDomain_of_statusByChecks ((exec_answers_statusByChecks i s).status_eq ht hr).symm
  exact inDomain_eq_false_iff.mp hdom

end Sys2Proof.Machine

/-! PROOFS. Which words are answered `E_ILLEGAL` (60 R137). -/

namespace Sys2Proof.Machine

/-- A word that decodes is answered with another status than `E_ILLEGAL`. -/
theorem not_answers_illegal_of_decode_ok {c : CmdWord} {i : Instr} (h : decode c = .ok i) (s : State) :
    ¬ Answers (step (s.present c)) (.error .illegal) := by
  rintro ⟨t, x, ht, hx, hst⟩
  rw [step_present_ok h] at ht
  exact statusByChecks_ne_illegal (((exec_answers_statusByChecks i s).status_eq ht hx).symm.trans hst)

theorem AnswersIllegal.answers {s : State} {c : CmdWord} (h : AnswersIllegal s c) :
    Answers (step (s.present c)) (.error .illegal) := ⟨_, _, h, rfl, rfl⟩

/-- Settles O7: the words that select a row are those that decode, and a command's checks never answer `E_ILLEGAL`. -/
theorem illegalExactlyWhenNoRowIsSelected : Obligations.IllegalExactlyWhenNoRowIsSelected := by
  unfold Obligations.IllegalExactlyWhenNoRowIsSelected
  constructor
  · intro s c
    constructor
    · intro hill r hr hsel
      obtain ⟨i, hi, -⟩ := decode_ok_of_selects hr hsel
      exact not_answers_illegal_of_decode_ok hi s hill
    · intro hnone
      refine (answersIllegal_of_not_ok (fun i hi => ?_) s).answers
      obtain ⟨r, hr, hsel, -⟩ := selects_of_decode_ok hi
      exact hnone r hr hsel
  · intro s w v h
    exact not_answers_illegal_of_decode_ok (decode_wmul w v) s h.answers

end Sys2Proof.Machine

/-! PROOFS. After an error the unit goes on as if the failing word had not come (60 R142). -/

namespace Sys2Proof.Machine

/-- No command looks at the response that stands: each meaning reads `S`, `K`, `W` and `KV` alone, and responds. -/
theorem exec_ignores_rsp (i : Instr) (s : State) (x : Option Response) : exec i { s with rsp := x } = exec i s := by
  cases i <;> rfl

/-- Neither does the step that performs a presented word. -/
theorem step_present_ignores_rsp (s : State) (x : Option Response) (c : CmdWord) :
    step (State.present { s with rsp := x } c) = step (s.present c) := by
  cases hd : decode c with
  | error e => rw [step_present_error hd, step_present_error hd]
  | ok i => rw [step_present_ok hd, step_present_ok hd, exec_ignores_rsp]

/-- A word answered with an error, illegal or not, leaves all but the response as it was, and `r` is 0. -/
theorem eq_of_step_present_error {s t : State} {c : CmdWord} {e : Err} {r : Word} (ht : step (s.present c) = .next t)
    (hr : t.rsp = some ⟨.error e, r⟩) : t = { s with rsp := some ⟨.error e, 0⟩ } := by
  cases hd : decode c with
  | error e' =>
    obtain rfl := Host.Outcome.next.inj ((step_present_error hd).symm.trans ht)
    cases hr
    rfl
  | ok i => exact eq_of_exec_error ((step_present_ok hd).symm.trans ht) hr

/-- Settles O13: the error changes the response alone, which the next word's step does not look at. -/
theorem errorChangesNothing : Obligations.ErrorChangesNothing := by
  unfold Obligations.ErrorChangesNothing
  intro s t c e r ht hr
  obtain rfl := eq_of_step_present_error ht hr
  cases hr
  exact ⟨rfl, rfl, ⟨rfl, rfl, rfl, rfl⟩, rfl, step_present_ignores_rsp s _⟩

end Sys2Proof.Machine

/-! PROOFS. What a command keeps of the state, and the rules of the flag `KV` (10 R13, 60 R140). -/

namespace Sys2Proof.Machine

/-- The outcome `f` of a command in `s` leaves `g`, a field of the state, as it was. -/
def Keeps {α : Type} (g : State → α) (s : State) (f : Result) : Prop := ∀ t, f = .next t → g t = g s

namespace Keeps

variable {α : Type} {g : State → α} {s : State}

theorem of_eq {f : Result} {u : State} (h : f = .next u) (hu : g u = g s) : Keeps g s f := by
  intro t ht
  obtain rfl := Host.Outcome.next.inj (h.symm.trans ht)
  exact hu

/-- A guard keeps a field other than the response if what it guards does: its error changes the response alone. -/
theorem withKey (hg : ∀ x, g { s with rsp := x } = g s) {f : Result} (h : Keeps g s f) : Keeps g s (s.withKey f) := by
  rcases withKey_cases s f with ⟨-, hf⟩ | ⟨-, hf⟩
  · rwa [hf]
  · exact of_eq hf (hg _)

theorem withIndex (hg : ∀ x, g { s with rsp := x } = g s) {n idx : Nat} {f : Fin n → Result}
    (h : ∀ j, Keeps g s (f j)) : Keeps g s (s.withIndex n idx f) := by
  rcases withIndex_cases s n idx f with ⟨hlt, hf⟩ | ⟨-, hf⟩
  · rw [hf]
    exact h ⟨idx, hlt⟩
  · exact of_eq hf (hg _)

end Keeps

/-- Only LDKEY and KEYEXPAND write `KV` (10 R13). -/
theorem exec_keeps_KV {i : Instr} (h : i.writesKV = false) (s : State) : Keeps State.KV s (exec i s) := by
  cases i with
  | ldkey idx w => cases h
  | keyexpand => cases h
  | gfinv x =>
    change Keeps State.KV s (execGfinv x s)
    unfold execGfinv
    split <;> exact .of_eq rfl rfl
  | rcon x =>
    change Keeps State.KV s (execRcon x s)
    unfold execRcon
    split <;> exact .of_eq rfl rfl
  | addroundkey idx => exact .withIndex (fun _ => rfl) fun _ => .withKey (fun _ => rfl) (.of_eq rfl rfl)
  | rdw idx => exact .withIndex (fun _ => rfl) fun _ => .withKey (fun _ => rfl) (.of_eq rfl rfl)
  | lds idx w => exact .withIndex (fun _ => rfl) fun _ => .of_eq rfl rfl
  | rds idx => exact .withIndex (fun _ => rfl) fun _ => .of_eq rfl rfl
  | encrypt => exact .withKey (fun _ => rfl) (.of_eq rfl rfl)
  | decrypt => exact .withKey (fun _ => rfl) (.of_eq rfl rfl)
  | _ => exact .of_eq rfl rfl

/-- LDKEY out of range keeps `KV` too: every other command than KEYEXPAND and an LDKEY in range does. -/
theorem exec_keeps_KV_of_ne {i : Instr} (hkx : i ≠ .keyexpand) (hld : ∀ idx w, idx ≤ 3 → i ≠ .ldkey idx w)
    (s : State) : Keeps State.KV s (exec i s) := by
  cases hw : i.writesKV with
  | false => exact exec_keeps_KV hw s
  | true =>
    cases i with
    | keyexpand => exact absurd rfl hkx
    | ldkey idx w =>
      have hidx : 4 ≤ idx := Nat.lt_of_not_le fun h => hld idx w h rfl
      exact .of_eq (exec_ldkey_of_le hidx w s) rfl
    | _ => cases hw

/-- A presented reset is performed as the reset event (60 R143). -/
theorem step_of_reset {s : State} {rest : List Input} (h : s.inputs = .reset :: rest) :
    step s = .next (State.resetEvent { s with inputs := rest }) := by
  simp only [step, State.stepWith, accept?_of_cons h]

/-- Bit 0 of STATUS is `KV` (10 R15). -/
theorem getLsbD_status_zero (s : State) : s.status.getLsbD 0 = s.KV := by
  simp [State.status]

/-- Settles O17: what each of the three writers leaves in `KV`, the frame of the rest, and the third check at
`KV = 0`. -/
theorem keyValidFlagRules : Obligations.KeyValidFlagRules := by
  unfold Obligations.KeyValidFlagRules
  refine ⟨?_, ?_, ?_, ?_, ?_, ?_⟩
  · intro s t ht
    obtain rfl := Host.Outcome.next.inj ((exec_keyexpand s).symm.trans ht)
    rfl
  · intro s t idx w hidx ht
    obtain rfl := Host.Outcome.next.inj ((exec_ldkey_of_lt (Nat.lt_succ_of_le hidx) w s).symm.trans ht)
    rfl
  · intro s t i ht hkx hld
    exact exec_keeps_KV_of_ne hkx hld s t ht
  · intro s t hhead ht
    obtain ⟨rest, hrest⟩ := List.head?_eq_some_iff.mp hhead
    obtain rfl := Host.Outcome.next.inj ((step_of_reset hrest).symm.trans ht)
    rfl
  · intro s hKV
    exact ⟨fun idx hidx => exec_addroundkey_of_invalid (Nat.lt_succ_of_le hidx) hKV,
      fun idx hidx => exec_rdw_of_invalid (Nat.lt_succ_of_le hidx) hKV,
      exec_encrypt_of_invalid hKV, exec_decrypt_of_invalid hKV⟩
  · intro s t ht
    obtain rfl := Host.Outcome.next.inj ((ok_eq s s.status).symm.trans ht)
    exact ⟨s.status, rfl, getLsbD_status_zero s⟩

end Sys2Proof.Machine

/-! PROOFS. Decoding and encoding undo each other (30 R35 to R39), format by format. -/

namespace Sys2Proof

/-! Each format accepts the operand fields of its own commands. -/

section Formats

variable (op : BitVec 8)

theorem formatN_zero (i : Instr) : formatN op 0 0 i = .ok i := if_pos ⟨rfl, rfl⟩

theorem formatB1_byteOperand (f : Byte → Instr) (x : Byte) : formatB1 op (byteOperand x) 0 f = .ok (f x) := by
  rw [formatB1, if_pos ⟨aboveByte_byteOperand x, rfl⟩, lowByte_byteOperand]

theorem formatB2_byteOperand (f : Byte → Byte → Instr) (x y : Byte) :
    formatB2 op (byteOperand x) (byteOperand y) f = .ok (f x y) := by
  rw [formatB2, if_pos ⟨aboveByte_byteOperand x, aboveByte_byteOperand y⟩, lowByte_byteOperand, lowByte_byteOperand]

theorem formatW1_zero (f : Word → Instr) (w : Word) : formatW1 op w 0 f = .ok (f w) := if_pos rfl

theorem formatI_indexOperand (f : Nat → Instr) {idx : Nat} (h : indexFits idx = true) :
    formatI op 0 (indexOperand idx) f = .ok (f idx) := by
  rw [formatI, if_pos ⟨rfl, aboveIndex_indexOperand idx⟩, lowIndex_indexOperand (of_decide_eq_true h)]

theorem formatWI_indexOperand (f : Nat → Word → Instr) (w : Word) {idx : Nat} (h : indexFits idx = true) :
    formatWI op w (indexOperand idx) f = .ok (f idx w) := by
  rw [formatWI, if_pos (aboveIndex_indexOperand idx), lowIndex_indexOperand (of_decide_eq_true h)]

end Formats

/-- The word of a well-formed command decodes to it: the opcode selects the format, which accepts its operands. -/
theorem decode_encode {i : Instr} (h : i.wellFormed = true) : decode (encode i) = .ok i := by
  cases i with
  | rdstat => exact (decode_rdstat ..).trans (formatN_zero ..)
  | gfadd x y => exact (decode_gfadd ..).trans (formatB2_byteOperand ..)
  | gfmul x y => exact (decode_gfmul ..).trans (formatB2_byteOperand ..)
  | gfpow x y => exact (decode_gfpow ..).trans (formatB2_byteOperand ..)
  | gfinv x => exact (decode_gfinv ..).trans (formatB1_byteOperand ..)
  | sbox x => exact (decode_sbox ..).trans (formatB1_byteOperand ..)
  | isbox x => exact (decode_isbox ..).trans (formatB1_byteOperand ..)
  | wmul w v => exact decode_wmul ..
  | subbytes => exact (decode_subbytes ..).trans (formatN_zero ..)
  | invsubbytes => exact (decode_invsubbytes ..).trans (formatN_zero ..)
  | shiftrows => exact (decode_shiftrows ..).trans (formatN_zero ..)
  | invshiftrows => exact (decode_invshiftrows ..).trans (formatN_zero ..)
  | mixcolumns => exact (decode_mixcolumns ..).trans (formatN_zero ..)
  | invmixcolumns => exact (decode_invmixcolumns ..).trans (formatN_zero ..)
  | addroundkey idx => exact (decode_addroundkey ..).trans (formatI_indexOperand _ _ h)
  | lds idx w => exact (decode_lds ..).trans (formatWI_indexOperand _ _ w h)
  | rds idx => exact (decode_rds ..).trans (formatI_indexOperand _ _ h)
  | rotword w => exact (decode_rotword ..).trans (formatW1_zero ..)
  | subword w => exact (decode_subword ..).trans (formatW1_zero ..)
  | rcon x => exact (decode_rcon ..).trans (formatB1_byteOperand ..)
  | ldkey idx w => exact (decode_ldkey ..).trans (formatWI_indexOperand _ _ w h)
  | keyexpand => exact (decode_keyexpand ..).trans (formatN_zero ..)
  | rdw idx => exact (decode_rdw ..).trans (formatI_indexOperand _ _ h)
  | encrypt => exact (decode_encrypt ..).trans (formatN_zero ..)
  | decrypt => exact (decode_decrypt ..).trans (formatN_zero ..)

/-- Settles O1: command by command, the format of its opcode gives the operands back. -/
theorem decodeOfEncodeIsTheCommand : Obligations.DecodeOfEncodeIsTheCommand := by
  unfold Obligations.DecodeOfEncodeIsTheCommand
  intro i h
  exact decode_encode h

/-- A command that the decoder reads from `c` is well formed, and `c` is its word. -/
def EncodesBack (c : CmdWord) : Prop := ∀ i, decode c = .ok i → encode i = c ∧ i.wellFormed = true

namespace EncodesBack

/-- If the decoder's check `p` of the word makes it the word of the well-formed command `j`, the word encodes back. -/
theorem of_check {c : CmdWord} {j : Instr} {e : DecodeError} {p : Prop} [Decidable p]
    (hd : decode c = if p then .ok j else .error e) (h : p → encode j = c ∧ j.wellFormed = true) : EncodesBack c := by
  intro i hi
  rw [hd] at hi
  split at hi
  next hp =>
    obtain rfl := Except.ok.inj hi
    exact h hp
  next => cases hi

variable {op : BitVec 8} {a b : Word}

theorem of_formatN {i : Instr} (hd : decode (cmdWord op a b) = formatN op a b i) (he : encode i = cmdWord op 0 0)
    (hwf : i.wellFormed = true) : EncodesBack (cmdWord op a b) := by
  refine of_check hd ?_
  rintro ⟨rfl, rfl⟩
  exact ⟨he, hwf⟩

theorem of_formatB1 {f : Byte → Instr} (hd : decode (cmdWord op a b) = formatB1 op a b f)
    (he : ∀ x, encode (f x) = cmdWord op (byteOperand x) 0) (hwf : ∀ x, (f x).wellFormed = true) :
    EncodesBack (cmdWord op a b) := by
  refine of_check hd ?_
  rintro ⟨ha, rfl⟩
  exact ⟨by rw [he, byteOperand_lowByte ha], hwf _⟩

theorem of_formatB2 {f : Byte → Byte → Instr} (hd : decode (cmdWord op a b) = formatB2 op a b f)
    (he : ∀ x y, encode (f x y) = cmdWord op (byteOperand x) (byteOperand y))
    (hwf : ∀ x y, (f x y).wellFormed = true) : EncodesBack (cmdWord op a b) := by
  refine of_check hd ?_
  rintro ⟨ha, hb⟩
  exact ⟨by rw [he, byteOperand_lowByte ha, byteOperand_lowByte hb], hwf _ _⟩

theorem of_formatW1 {f : Word → Instr} (hd : decode (cmdWord op a b) = formatW1 op a b f)
    (he : ∀ w, encode (f w) = cmdWord op w 0) (hwf : ∀ w, (f w).wellFormed = true) :
    EncodesBack (cmdWord op a b) := by
  refine of_check hd ?_
  rintro rfl
  exact ⟨he a, hwf a⟩

theorem of_formatW2 {f : Word → Word → Instr} (hd : decode (cmdWord op a b) = formatW2 a b f)
    (he : ∀ w v, encode (f w v) = cmdWord op w v) (hwf : ∀ w v, (f w v).wellFormed = true) :
    EncodesBack (cmdWord op a b) := by
  intro i hi
  obtain rfl := Except.ok.inj (hd.symm.trans hi)
  exact ⟨he a b, hwf a b⟩

theorem of_formatI {f : Nat → Instr} (hd : decode (cmdWord op a b) = formatI op a b f)
    (he : ∀ idx, encode (f idx) = cmdWord op 0 (indexOperand idx)) (hwf : ∀ idx, (f idx).wellFormed = indexFits idx) :
    EncodesBack (cmdWord op a b) := by
  refine of_check hd ?_
  rintro ⟨rfl, hb⟩
  exact ⟨by rw [he, indexOperand_lowIndex hb], (hwf _).trans (decide_eq_true (lowIndex_lt b))⟩

theorem of_formatWI {f : Nat → Word → Instr} (hd : decode (cmdWord op a b) = formatWI op a b f)
    (he : ∀ idx w, encode (f idx w) = cmdWord op w (indexOperand idx))
    (hwf : ∀ idx w, (f idx w).wellFormed = indexFits idx) : EncodesBack (cmdWord op a b) := by
  refine of_check hd ?_
  intro hb
  exact ⟨by rw [he, indexOperand_lowIndex hb], (hwf _ _).trans (decide_eq_true (lowIndex_lt b))⟩

/-- Opcode by opcode, by the format that the decoder gives it. -/
theorem of_listed {op : BitVec 8} (h : op ∈ opcodesOfTheSpec) (a b : Word) : EncodesBack (cmdWord op a b) := by
  simp only [opcodesOfTheSpec, List.mem_cons, List.not_mem_nil, or_false] at h
  rcases h with rfl | rfl | rfl | rfl | rfl | rfl | rfl | rfl | rfl | rfl | rfl | rfl | rfl | rfl | rfl | rfl | rfl |
    rfl | rfl | rfl | rfl | rfl | rfl | rfl | rfl
  · exact of_formatN (decode_rdstat a b) rfl rfl
  · exact of_formatB2 (decode_gfadd a b) (fun _ _ => rfl) (fun _ _ => rfl)
  · exact of_formatB2 (decode_gfmul a b) (fun _ _ => rfl) (fun _ _ => rfl)
  · exact of_formatB2 (decode_gfpow a b) (fun _ _ => rfl) (fun _ _ => rfl)
  · exact of_formatB1 (decode_gfinv a b) (fun _ => rfl) (fun _ => rfl)
  · exact of_formatB1 (decode_sbox a b) (fun _ => rfl) (fun _ => rfl)
  · exact of_formatB1 (decode_isbox a b) (fun _ => rfl) (fun _ => rfl)
  · exact of_formatW2 (decode_wmul a b) (fun _ _ => rfl) (fun _ _ => rfl)
  · exact of_formatN (decode_subbytes a b) rfl rfl
  · exact of_formatN (decode_invsubbytes a b) rfl rfl
  · exact of_formatN (decode_shiftrows a b) rfl rfl
  · exact of_formatN (decode_invshiftrows a b) rfl rfl
  · exact of_formatN (decode_mixcolumns a b) rfl rfl
  · exact of_formatN (decode_invmixcolumns a b) rfl rfl
  · exact of_formatI (decode_addroundkey a b) (fun _ => rfl) (fun _ => rfl)
  · exact of_formatWI (decode_lds a b) (fun _ _ => rfl) (fun _ _ => rfl)
  · exact of_formatI (decode_rds a b) (fun _ => rfl) (fun _ => rfl)
  · exact of_formatW1 (decode_rotword a b) (fun _ => rfl) (fun _ => rfl)
  · exact of_formatW1 (decode_subword a b) (fun _ => rfl) (fun _ => rfl)
  · exact of_formatB1 (decode_rcon a b) (fun _ => rfl) (fun _ => rfl)
  · exact of_formatWI (decode_ldkey a b) (fun _ _ => rfl) (fun _ _ => rfl)
  · exact of_formatN (decode_keyexpand a b) rfl rfl
  · exact of_formatI (decode_rdw a b) (fun _ => rfl) (fun _ => rfl)
  · exact of_formatN (decode_encrypt a b) rfl rfl
  · exact of_formatN (decode_decrypt a b) rfl rfl

end EncodesBack

/-- Settles O2: a word decodes only with a listed opcode, and the format's check leaves no bit free. -/
theorem encodeOfDecodeIsTheWord : Obligations.EncodeOfDecodeIsTheWord := by
  unfold Obligations.EncodeOfDecodeIsTheWord
  intro c i h
  have hback := EncodesBack.of_listed (opField_mem_of_decode_ok h) (aField c) (bField c)
  rw [cmdWord_fields] at hback
  exact hback i h

/-- A word that is known to be the word of a well-formed command decodes to it. -/
theorem decode_of_eq_encode {c : CmdWord} {i : Instr} (hc : c = encode i) (h : i.wellFormed = true) :
    decode c = .ok i := by rw [hc, decode_encode h]

/-- Settles O4: eight of the words are the words of their commands; the opcode of the ninth is not listed, and bit 8
of `a` is set in the tenth. -/
theorem wordsOfTheSpecDecode : Obligations.WordsOfTheSpecDecode := by
  unfold Obligations.WordsOfTheSpecDecode
  refine ⟨?_, ?_, ?_, ?_, ?_, ?_, ?_, ?_, ?_, ?_⟩
  case refine_9 => exact decode_of_unlisted (by decide)
  case refine_10 =>
    have hfields : 0x110000015700000083#72 = cmdWord 0x11#8 0x157#32 0x83#32 := by decide
    rw [hfields, decode_gfmul, formatB2, if_neg (by decide)]
  all_goals exact decode_of_eq_encode (by decide) rfl

end Sys2Proof

/-! PROOFS. What a command can do to the state, said once, and what follows for each register (10 R10 to R13). -/

namespace Sys2Proof.Machine

/-- The four things a command can do: respond alone, with `r = 0` if it has no result; write `S`; load a key word;
expand the key. The last three answer `OK, 0` (60 R136). -/
def Effect (i : Instr) (s : State) (f : Result) : Prop :=
  (∃ x, (i.hasNoResult = true → x.r = 0) ∧ f = .next { s with rsp := some x }) ∨
  (∃ T, i.writesS = true ∧ f = .next { s with S := T, rsp := okZero }) ∨
  (∃ idx w, ∃ _ : idx < 4, i = .ldkey idx w ∧ f = .next { s with K := s.K.set idx w, KV := false, rsp := okZero }) ∨
  (i = .keyexpand ∧ f = .next { s with W := expandKey s.K, KV := true, rsp := okZero })

namespace Effect

variable {i : Instr} {s : State}

theorem responds (x : Response) (hr : i.hasNoResult = true → x.r = 0) : Effect i s (.next { s with rsp := some x }) :=
  .inl ⟨x, hr, rfl⟩

theorem ok (v : Word) (hi : i.hasNoResult = false) : Effect i s (s.ok v) :=
  responds ⟨.ok, v⟩ fun h => absurd (hi.symm.trans h) Bool.false_ne_true

theorem raise (e : Err) : Effect i s (s.raise e) := responds ⟨.error e, 0⟩ fun _ => rfl

theorem writesS (T : Block) (hi : i.writesS = true) : Effect i s ((s.writeS T).ok 0) := .inr (.inl ⟨T, hi, rfl⟩)

theorem loadsKey {idx : Nat} (h : idx < 4) (w : Word) :
    Effect (.ldkey idx w) s ((s.writeKeyWord ⟨idx, h⟩ w).clearKV.ok 0) :=
  .inr (.inr (.inl ⟨idx, w, h, rfl, rfl⟩))

theorem expandsKey : Effect .keyexpand s (execKeyexpand s) := .inr (.inr (.inr ⟨rfl, rfl⟩))

theorem goes {f : Result} (h : Effect i s f) : Goes f := by
  rcases h with ⟨_, -, hf⟩ | ⟨_, -, hf⟩ | ⟨_, _, _, -, hf⟩ | ⟨-, hf⟩ <;> exact ⟨_, hf⟩

theorem withKey {f : Result} (h : Effect i s f) : Effect i s (s.withKey f) := by
  rcases withKey_cases s f with ⟨-, hf⟩ | ⟨-, hf⟩
  · rwa [hf]
  · rw [hf]
    exact raise .noKey

theorem withIndex {n idx : Nat} {f : Fin n → Result} (h : ∀ (hlt : idx < n), Effect i s (f ⟨idx, hlt⟩)) :
    Effect i s (s.withIndex n idx f) := by
  rcases withIndex_cases s n idx f with ⟨hlt, hf⟩ | ⟨-, hf⟩
  · rw [hf]
    exact h hlt
  · rw [hf]
    exact raise .index

end Effect

/-- Every command has one of the four effects. -/
theorem exec_effect (i : Instr) (s : State) : Effect i s (exec i s) := by
  cases i with
  | rdstat => exact .ok _ rfl
  | gfadd x y => exact .ok _ rfl
  | gfmul x y => exact .ok _ rfl
  | gfpow x y => exact .ok _ rfl
  | gfinv x =>
    change Effect _ s (execGfinv x s)
    unfold execGfinv
    split
    · exact .raise .domain
    · exact .ok _ rfl
  | sbox x => exact .ok _ rfl
  | isbox x => exact .ok _ rfl
  | wmul w v => exact .ok _ rfl
  | subbytes => exact .writesS _ rfl
  | invsubbytes => exact .writesS _ rfl
  | shiftrows => exact .writesS _ rfl
  | invshiftrows => exact .writesS _ rfl
  | mixcolumns => exact .writesS _ rfl
  | invmixcolumns => exact .writesS _ rfl
  | addroundkey idx => exact .withIndex fun _ => .withKey (.writesS _ rfl)
  | lds idx w => exact .withIndex fun _ => .writesS _ rfl
  | rds idx => exact .withIndex fun _ => .ok _ rfl
  | rotword w => exact .ok _ rfl
  | subword w => exact .ok _ rfl
  | rcon x =>
    change Effect _ s (execRcon x s)
    unfold execRcon
    split
    · exact .raise .domain
    · exact .ok _ rfl
  | ldkey idx w => exact .withIndex fun hlt => .loadsKey hlt w
  | keyexpand => exact .expandsKey
  | rdw idx => exact .withIndex fun _ => .withKey (.ok _ rfl)
  | encrypt => exact .withKey (.writesS _ rfl)
  | decrypt => exact .withKey (.writesS _ rfl)

section Effects

variable {i : Instr} {s t : State}

/-- What the state that a command leaves can be. -/
theorem exec_cases (h : exec i s = .next t) :
    (∃ x, (i.hasNoResult = true → x.r = 0) ∧ t = { s with rsp := some x }) ∨
    (∃ T, i.writesS = true ∧ t = { s with S := T, rsp := okZero }) ∨
    (∃ idx w, ∃ _ : idx < 4, i = .ldkey idx w ∧ t = { s with K := s.K.set idx w, KV := false, rsp := okZero }) ∨
    (i = .keyexpand ∧ t = { s with W := expandKey s.K, KV := true, rsp := okZero }) := by
  rcases h ▸ exec_effect i s with ⟨x, hr, ht⟩ | ⟨T, hw, ht⟩ | ⟨idx, w, hlt, hl, ht⟩ | ⟨hx, ht⟩
  · exact .inl ⟨x, hr, Host.Outcome.next.inj ht⟩
  · exact .inr (.inl ⟨T, hw, Host.Outcome.next.inj ht⟩)
  · exact .inr (.inr (.inl ⟨idx, w, hlt, hl, Host.Outcome.next.inj ht⟩))
  · exact .inr (.inr (.inr ⟨hx, Host.Outcome.next.inj ht⟩))

/-- No command stops the unit (60 R142). -/
theorem exec_goes (i : Instr) (s : State) : Goes (exec i s) := (exec_effect i s).goes

theorem S_of_exec (h : exec i s = .next t) (hi : i.writesS = false) : t.S = s.S := by
  rcases exec_cases h with ⟨x, -, rfl⟩ | ⟨T, hw, rfl⟩ | ⟨idx, w, hlt, -, rfl⟩ | ⟨-, rfl⟩
  · rfl
  · exact absurd (hi.symm.trans hw) Bool.false_ne_true
  · rfl
  · rfl

theorem K_of_exec (h : exec i s = .next t) (hi : ∀ idx w, i ≠ .ldkey idx w) : t.K = s.K := by
  rcases exec_cases h with ⟨x, -, rfl⟩ | ⟨T, -, rfl⟩ | ⟨idx, w, hlt, hl, rfl⟩ | ⟨-, rfl⟩
  · rfl
  · rfl
  · exact absurd hl (hi idx w)
  · rfl

theorem W_of_exec (h : exec i s = .next t) (hi : i ≠ .keyexpand) : t.W = s.W := by
  rcases exec_cases h with ⟨x, -, rfl⟩ | ⟨T, -, rfl⟩ | ⟨idx, w, hlt, -, rfl⟩ | ⟨hx, rfl⟩
  · rfl
  · rfl
  · rfl
  · exact absurd hx hi

theorem samePorts_of_exec (h : exec i s = .next t) : t.SamePorts s := by
  rcases exec_cases h with ⟨x, -, rfl⟩ | ⟨T, -, rfl⟩ | ⟨idx, w, hlt, -, rfl⟩ | ⟨-, rfl⟩ <;> exact ⟨rfl, rfl⟩

/-- Every command but KEYEXPAND keeps `KV` or clears it (10 R13). -/
theorem KV_of_exec (h : exec i s = .next t) (hi : i ≠ .keyexpand) : t.KV = s.KV ∨ t.KV = false := by
  rcases exec_cases h with ⟨x, -, rfl⟩ | ⟨T, -, rfl⟩ | ⟨idx, w, hlt, -, rfl⟩ | ⟨hx, rfl⟩
  · exact .inl rfl
  · exact .inl rfl
  · exact .inr rfl
  · exact absurd hx hi

/-- A command keeps the invariant of the schedule: what it writes is neither `K` nor `W`, or it clears `KV`, or it
writes the expansion of `K` (10 R17). -/
theorem scheduleValid_of_exec (hs : s.ScheduleValid) (h : exec i s = .next t) : t.ScheduleValid := by
  rcases exec_cases h with ⟨x, -, rfl⟩ | ⟨T, -, rfl⟩ | ⟨idx, w, hlt, -, rfl⟩ | ⟨-, rfl⟩
  · exact hs
  · exact hs
  · exact fun hKV => absurd hKV Bool.false_ne_true
  · exact fun _ => rfl

end Effects

/-- Settles O23: a step is idle, a reset, an error response, or one of the four effects of a command. -/
theorem stepKeepsScheduleValid : Obligations.StepKeepsScheduleValid := by
  unfold Obligations.StepKeepsScheduleValid
  intro s t hs hstep
  rcases step_cases hstep with ⟨-, rfl⟩ | ⟨x, rest, -, -, rfl⟩ | ⟨c, rest, e, -, -, rfl⟩ | ⟨c, rest, i, -, -, hexec⟩
  · exact hs
  · exact fun hKV => absurd hKV Bool.false_ne_true
  · exact hs
  · exact scheduleValid_of_exec (s := { s with inputs := rest }) hs hexec

/-- Settles O24: `KV` is 0 at reset. -/
theorem resetHasScheduleValid : Obligations.ResetHasScheduleValid := by
  unfold Obligations.ResetHasScheduleValid
  exact fun hKV => absurd hKV Bool.false_ne_true

/-- The invariant of the schedule holds at reset whatever is presented, and every step keeps it (10 R17). -/
theorem scheduleValid_of_reachable {s : State} (h : Reachable s) : s.ScheduleValid := by
  induction h with
  | reset inputs => exact resetHasScheduleValid
  | step s t _ hstep ih => exact stepKeepsScheduleValid s t ih hstep

/-- Settles O25: the invariant of the reachable states, and the first four words of an expansion are the key. -/
theorem reachableScheduleIsTheKeysExpansion : Obligations.ReachableScheduleIsTheKeysExpansion := by
  unfold Obligations.ReachableScheduleIsTheKeysExpansion
  intro s hreach hKV
  have hW := scheduleValid_of_reachable hreach hKV
  exact ⟨hW, fun j => by rw [hW, expandKey_getElem_key]⟩

/-- Settles O16: of the four effects only a response alone can have another `r` than 0, and not for such a command. -/
theorem commandsWithoutResultAnswerZero : Obligations.CommandsWithoutResultAnswerZero := by
  unfold Obligations.CommandsWithoutResultAnswerZero
  intro i s t x hi ht hx
  rcases exec_cases ht with ⟨y, hr, rfl⟩ | ⟨T, -, rfl⟩ | ⟨idx, w, hlt, -, rfl⟩ | ⟨-, rfl⟩
  · obtain rfl := Option.some.inj hx
    exact hr hi
  all_goals
    obtain rfl := Option.some.inj hx
    rfl

/-- Settles O19: register by register, from the four effects. -/
theorem commandsWriteOnlyTheirState : Obligations.CommandsWriteOnlyTheirState := by
  unfold Obligations.CommandsWriteOnlyTheirState
  intro i s t ht
  refine ⟨S_of_exec ht, K_of_exec ht, W_of_exec ht, ?_, samePorts_of_exec ht⟩
  intro hkx hld
  exact exec_keeps_KV_of_ne hkx (fun idx w _ => hld idx w) s t ht

/-- While no KEYEXPAND comes `KV` stays 0 (10 R13, 70 R158). -/
theorem KV_of_execAll {is : List Instr} {s t : State} (hKV : s.KV = false) (hx : .keyexpand ∉ is)
    (h : execAll is s = .next t) : t.KV = false := by
  induction is generalizing s with
  | nil =>
    obtain rfl := Host.Outcome.next.inj h
    exact hKV
  | cons i is ih =>
    obtain ⟨u, hu⟩ := exec_goes i s
    rw [execAll_cons_of_next hu] at h
    have hne : i ≠ .keyexpand := fun he => hx (he ▸ List.mem_cons_self)
    refine ih ?_ (fun hmem => hx (List.mem_cons_of_mem i hmem)) h
    rcases KV_of_exec hu hne with hk | hk
    · exact hk.trans hKV
    · exact hk

/-- Settles O26: LDKEY clears `KV`, and only KEYEXPAND sets it. -/
theorem keyChangeInvalidatesUntilExpanded : Obligations.KeyChangeInvalidatesUntilExpanded := by
  unfold Obligations.KeyChangeInvalidatesUntilExpanded
  intro s t idx w is hidx hx ht
  rw [execAll_ldkey_cons (Nat.lt_succ_of_le hidx)] at ht
  have hKV : t.KV = false := KV_of_execAll rfl hx ht
  exact ⟨fun k hk => exec_addroundkey_of_invalid (Nat.lt_succ_of_le hk) hKV,
    fun j hj => exec_rdw_of_invalid (Nat.lt_succ_of_le hj) hKV,
    exec_encrypt_of_invalid hKV, exec_decrypt_of_invalid hKV⟩

end Sys2Proof.Machine

/-! PROOFS. What a command does not read cannot change what it does (10 R10 to R12, R19). -/

namespace Sys2Proof.Machine

/-- The outcome `f` followed by the change `u` of the state is the outcome `g`, whenever `f` completes. -/
def Carries (u : State → State) (f g : Result) : Prop := ∀ t, f = .next t → g = .next (u t)

namespace Carries

variable {u : State → State} {s : State}

theorem of_eq {t : State} {f g : Result} (hf : f = .next t) (hg : g = .next (u t)) : Carries u f g := by
  intro t' ht'
  obtain rfl := Host.Outcome.next.inj (hf.symm.trans ht')
  exact hg

/-- A change of the state that leaves `KV` and the response alone is carried through a guard by the key. -/
theorem withKey {f g : Result} (hKV : (u s).KV = s.KV) (hrsp : ∀ x, u { s with rsp := x } = { u s with rsp := x })
    (h : Carries u f g) : Carries u (s.withKey f) ((u s).withKey g) := by
  cases hk : s.KV with
  | true =>
    rw [withKey_of_valid hk, withKey_of_valid (hKV.trans hk)]
    exact h
  | false => exact of_eq (withKey_of_invalid hk f) ((withKey_of_invalid (hKV.trans hk) g).trans (hrsp _ ▸ rfl))

/-- A change of the state that leaves the response alone is carried through a check of the index. -/
theorem withIndex {n idx : Nat} {f g : Fin n → Result} (hrsp : ∀ x, u { s with rsp := x } = { u s with rsp := x })
    (h : ∀ j, Carries u (f j) (g j)) : Carries u (s.withIndex n idx f) ((u s).withIndex n idx g) := by
  rcases Nat.lt_or_ge idx n with hlt | hle
  · rw [withIndex_of_lt hlt, withIndex_of_lt hlt]
    exact h ⟨idx, hlt⟩
  · exact of_eq (withIndex_of_le hle f) ((withIndex_of_le hle g).trans (hrsp _ ▸ rfl))

end Carries

/-- The answer of a pure command: that of its meaning on the state after reset, since it looks at no state (20 R32). -/
theorem exec_of_isPure {i : Instr} (h : i.isPure = true) : ∃ x, ∀ s, exec i s = .next { s with rsp := some x } := by
  cases i with
  | gfadd x y => exact ⟨_, exec_gfadd_of_eq rfl⟩
  | gfmul x y => exact ⟨_, exec_gfmul_of_eq rfl⟩
  | gfpow x y => exact ⟨_, exec_gfpow_of_eq rfl⟩
  | gfinv x =>
    cases hx : gfInv x with
    | none =>
      obtain rfl := (gfInv_eq_none_iff x).mp hx
      exact ⟨_, exec_gfinv_zero⟩
    | some b => exact ⟨_, exec_gfinv_of_eq hx⟩
  | sbox x => exact ⟨_, exec_sbox_of_eq rfl⟩
  | isbox x => exact ⟨_, exec_isbox_of_eq rfl⟩
  | wmul w v => exact ⟨_, exec_wmul_of_eq rfl⟩
  | rotword w => exact ⟨_, exec_rotword_of_eq rfl⟩
  | subword w => exact ⟨_, exec_subword_of_eq rfl⟩
  | rcon x =>
    by_cases hx : x = 0
    · subst hx
      exact ⟨_, exec_rcon_zero⟩
    · have hpos : 1 ≤ x.toNat := Nat.one_le_iff_ne_zero.mpr fun h => hx (BitVec.eq_of_toNat_eq h)
      exact ⟨_, exec_rcon_of_eq (rcon?_of_pos hpos)⟩
  | _ => cases h

section Ignores

variable {i : Instr} (s : State)

/-- A pure command carries every change that leaves the response alone. -/
theorem carries_of_isPure (h : i.isPure = true) {u : State → State}
    (hrsp : ∀ x, u { s with rsp := x } = { u s with rsp := x }) : Carries u (exec i s) (exec i (u s)) := by
  obtain ⟨x, hx⟩ := exec_of_isPure h
  exact .of_eq (hx s) ((hx (u s)).trans (hrsp _ ▸ rfl))

/-- No command looks at what the host presents next (30 R49). -/
theorem exec_carries_inputs (i : Instr) (l : List Input) :
    Carries (fun s => { s with inputs := l }) (exec i s) (exec i { s with inputs := l }) := by
  cases i with
  | gfinv x | rcon x => exact carries_of_isPure s rfl fun _ => rfl
  | addroundkey idx | rdw idx => exact .withIndex (fun _ => rfl) fun _ => .withKey rfl (fun _ => rfl) (.of_eq rfl rfl)
  | lds idx w | rds idx | ldkey idx w => exact .withIndex (fun _ => rfl) fun _ => .of_eq rfl rfl
  | encrypt | decrypt => exact .withKey rfl (fun _ => rfl) (.of_eq rfl rfl)
  | _ => exact .of_eq rfl rfl

/-- Only KEYEXPAND reads `K`, and LDKEY writes it (10 R11). -/
theorem exec_carries_K (hx : i ≠ .keyexpand) (hl : ∀ idx w, i ≠ .ldkey idx w) (k : Key) :
    Carries (fun s => { s with K := k }) (exec i s) (exec i { s with K := k }) := by
  cases i with
  | keyexpand => exact absurd rfl hx
  | ldkey idx w => exact absurd rfl (hl idx w)
  | gfinv x | rcon x => exact carries_of_isPure s rfl fun _ => rfl
  | addroundkey idx | rdw idx => exact .withIndex (fun _ => rfl) fun _ => .withKey rfl (fun _ => rfl) (.of_eq rfl rfl)
  | lds idx w | rds idx => exact .withIndex (fun _ => rfl) fun _ => .of_eq rfl rfl
  | encrypt | decrypt => exact .withKey rfl (fun _ => rfl) (.of_eq rfl rfl)
  | _ => exact .of_eq rfl rfl

/-- Only RDS and the commands that write `S` read it (10 R10). -/
theorem exec_carries_S (hw : i.writesS = false) (hr : ∀ idx, i ≠ .rds idx) (T : Block) :
    Carries (fun s => { s with S := T }) (exec i s) (exec i { s with S := T }) := by
  cases i with
  | lds | subbytes | invsubbytes | shiftrows | invshiftrows | mixcolumns | invmixcolumns | addroundkey | encrypt
  | decrypt => cases hw
  | rds idx => exact absurd rfl (hr idx)
  | gfinv x | rcon x => exact carries_of_isPure s rfl fun _ => rfl
  | rdw idx => exact .withIndex (fun _ => rfl) fun _ => .withKey rfl (fun _ => rfl) (.of_eq rfl rfl)
  | ldkey idx w => exact .withIndex (fun _ => rfl) fun _ => .of_eq rfl rfl
  | _ => exact .of_eq rfl rfl

/-- Only the commands that need a key read `W`, and KEYEXPAND writes it (10 R12). -/
theorem exec_carries_W (hk : i.needsKey = false) (hx : i ≠ .keyexpand) (w : Schedule) :
    Carries (fun s => { s with W := w }) (exec i s) (exec i { s with W := w }) := by
  cases i with
  | addroundkey | rdw | encrypt | decrypt => cases hk
  | keyexpand => exact absurd rfl hx
  | gfinv x | rcon x => exact carries_of_isPure s rfl fun _ => rfl
  | lds idx w | rds idx | ldkey idx w => exact .withIndex (fun _ => rfl) fun _ => .of_eq rfl rfl
  | _ => exact .of_eq rfl rfl

/-- Without a key not even the commands that need one read `W`: the check of the index or that of the key fails
(60 R140). -/
theorem exec_carries_W_of_invalid {s : State} (hKV : s.KV = false) (hx : i ≠ .keyexpand) (w : Schedule) :
    Carries (fun s => { s with W := w }) (exec i s) (exec i { s with W := w }) := by
  cases hk : i.needsKey with
  | false => exact exec_carries_W s hk hx w
  | true =>
    cases hidx : i.indexInRange with
    | false => exact .of_eq (exec_of_indexOutOfRange hidx s) (exec_of_indexOutOfRange hidx _)
    | true => exact .of_eq (exec_of_noKey hidx hk hKV) (exec_of_noKey hidx hk hKV)

end Ignores

/-- Settles O20: register by register. -/
theorem commandsReadOnlyTheirState : Obligations.CommandsReadOnlyTheirState := by
  unfold Obligations.CommandsReadOnlyTheirState
  intro i s t ht
  refine ⟨?_, ?_, ?_⟩
  · intro k hx hl
    exact exec_carries_K s hx hl k t ht
  · intro T hw hr
    exact exec_carries_S s hw hr T t ht
  · intro w hk hx
    rcases hk with hk | hKV
    · exact exec_carries_W s hk hx w t ht
    · exact exec_carries_W_of_invalid hKV hx w t ht

end Sys2Proof.Machine

/-! PROOFS. The step and the run over presented words (20 R28, R29, 30 R49), and the reset event (70 R155). -/

namespace Sys2Proof.Machine

/-- A step performs the oldest word, on the state in which it has left the input. -/
theorem step_of_command {s : State} {c : CmdWord} {rest : List Input} {i : Instr} (h : s.inputs = .command c :: rest)
    (hd : decode c = .ok i) : step s = exec i { s with inputs := rest } := by
  simp only [step, State.stepWith, accept?_of_cons h, hd]

/-- A presented reset that cuts a command short is performed as the reset event, whatever the command (60 R143). -/
theorem step_of_resetDuring {s : State} {c : CmdWord} {rest : List Input} (h : s.inputs = .resetDuring c :: rest) :
    step s = .next (State.resetEvent { s with inputs := rest }) := by
  simp only [step, State.stepWith, accept?_of_cons h]

/-- Settles O8: a step is the meaning of the oldest word, or idle. -/
theorem stepRunsTheDecodedCommand : Obligations.StepRunsTheDecodedCommand := by
  unfold Obligations.StepRunsTheDecodedCommand
  refine ⟨?_, ?_, ?_⟩
  · intro s c rest i hin hd
    exact step_of_command hin hd
  · intro s c i hd
    exact step_present_ok hd
  · intro s hin
    exact step_idle hin

/-- Settles O22: both forms of reset are the reset event on the remaining inputs. -/
theorem resetEvent : Obligations.ResetEvent := by
  unfold Obligations.ResetEvent
  refine ⟨?_, ?_, rfl, State.status_of_invalid _ rfl, rfl, fun _ => step_idle⟩
  · intro s x rest hin hx
    have hstep : step s = .next (State.resetEvent { s with inputs := rest }) := by
      cases x with
      | command c => exact absurd rfl (hx c)
      | reset => exact step_of_reset hin
      | resetDuring c => exact step_of_resetDuring hin
    exact ⟨_, hstep, rfl, State.status_of_invalid _ rfl, rfl, rfl⟩
  · intro s t t' c c' rest ht ht'
    obtain rfl := Host.Outcome.next.inj ((step_of_resetDuring rfl).symm.trans ht)
    obtain rfl := Host.Outcome.next.inj ((step_of_resetDuring rfl).symm.trans ht')
    exact ⟨rfl, rfl, rfl, rfl⟩

/-- One step of a run that goes on. -/
theorem run_succ_of_next {M : Host.Core} {s t : M.State} (h : M.step s = .next t) (n : Nat) :
    M.run (n + 1) s = M.run n t := by
  rw [Host.Core.run, h]

theorem feed_of_idle {s : State} (h : s.inputs = []) (is : List Instr) :
    s.feed is = { s with inputs := is.map fun i => .command (encode i) } := by
  rw [State.feed, h, List.nil_append]

/-- The step on the first of the presented words performs its command; what the rest are does not matter to it. -/
theorem step_feed_cons {i : Instr} (hwf : i.wellFormed = true) {s t : State} (hs : s.inputs = [])
    (ht : exec i s = .next t) (is : List Instr) : step (s.feed (i :: is)) = .next (t.feed is) := by
  rw [feed_of_idle hs, feed_of_idle ((samePorts_of_exec ht).1.symm.trans hs), step_of_command rfl (decode_encode hwf)]
  exact exec_carries_inputs s i _ t ht

/-- Settles O9: by induction on the commands. -/
theorem runPerformsCommandsInOrder : Obligations.RunPerformsCommandsInOrder := by
  unfold Obligations.RunPerformsCommandsInOrder
  intro is
  induction is with
  | nil =>
    intro s _ hs
    rw [State.feed, List.map_nil, List.append_nil]
    rfl
  | cons i is ih =>
    intro s hwf hs
    obtain ⟨hi, his⟩ := List.forall_mem_cons.mp hwf
    obtain ⟨t, ht⟩ := exec_goes i s
    rw [List.length_cons, run_succ_of_next (M := core) (step_feed_cons hi hs ht is), execAll_cons_of_next ht]
    exact ih t his ((samePorts_of_exec ht).1.symm.trans hs)

end Sys2Proof.Machine

/-! PROOFS. Every word has its answer (30 R42, 60 R135), and the response as a word (30 R36). -/

namespace Sys2Proof.Machine

theorem mnemonic_of_indexOutOfRange {i : Instr} (h : i.indexInRange = false) :
    i.mnemonic ∈ ["LDS", "RDS", "LDKEY", "RDW", "ADDROUNDKEY"] := by
  cases i with
  | lds => exact List.mem_of_getElem? (i := 0) rfl
  | rds => exact List.mem_of_getElem? (i := 1) rfl
  | ldkey => exact List.mem_of_getElem? (i := 2) rfl
  | rdw => exact List.mem_of_getElem? (i := 3) rfl
  | addroundkey => exact List.mem_of_getElem? (i := 4) rfl
  | _ => cases h

theorem mnemonic_of_notInDomain {i : Instr} (h : i.inDomain = false) : i.mnemonic ∈ ["GFINV", "RCON"] := by
  rcases inDomain_eq_false_iff.mp h with rfl | rfl
  · exact List.mem_of_getElem? (i := 0) rfl
  · exact List.mem_of_getElem? (i := 1) rfl

theorem mnemonic_of_needsKey {i : Instr} (h : i.needsKey = true) :
    i.mnemonic ∈ ["ADDROUNDKEY", "RDW", "ENCRYPT", "DECRYPT"] := by
  cases i with
  | addroundkey => exact List.mem_of_getElem? (i := 0) rfl
  | rdw => exact List.mem_of_getElem? (i := 1) rfl
  | encrypt => exact List.mem_of_getElem? (i := 2) rfl
  | decrypt => exact List.mem_of_getElem? (i := 3) rfl
  | _ => cases h

theorem needsKey_of_statusByChecks {i : Instr} {kv : Bool} (h : i.statusByChecks kv = .error .noKey) :
    i.needsKey = true := by
  rcases statusByChecks_cases i kv with ⟨-, hst⟩ | ⟨-, -, hst⟩ | ⟨-, -, hkey, -⟩ | ⟨-, -, -, hst⟩
  case inr.inr.inl => exact hkey
  all_goals simp [hst] at h

/-- Settles O10: a word that does not decode is answered `E_ILLEGAL`, and a command with the status of its checks, each
of which only the commands of the table can fail. -/
theorem everyWordIsAnsweredWithOneStatus : Obligations.EveryWordIsAnsweredWithOneStatus := by
  unfold Obligations.EveryWordIsAnsweredWithOneStatus
  intro s c
  cases hd : decode c with
  | error e =>
    refine ⟨_, _, step_present_error hd, rfl, rfl, ?_, ?_, ?_, ?_⟩
    · intro _ i hi
      cases hi
    all_goals exact fun h => nomatch h
  | ok i =>
    obtain ⟨t, x, ht, hx, hst⟩ := exec_answers_statusByChecks i s
    refine ⟨t, x, (step_present_ok hd).trans ht, hx, (samePorts_of_exec ht).1.symm, ?_, ?_, ?_, ?_⟩
    · intro h
      exact absurd (hst.symm.trans h) statusByChecks_ne_illegal
    · intro h
      exact ⟨i, rfl, mnemonic_of_indexOutOfRange (indexOutOfRange_of_statusByChecks (hst.symm.trans h))⟩
    · intro h
      exact ⟨i, rfl, mnemonic_of_notInDomain (notInDomain_of_statusByChecks (hst.symm.trans h))⟩
    · intro h
      exact ⟨i, rfl, mnemonic_of_needsKey (needsKey_of_statusByChecks (hst.symm.trans h))⟩

theorem rspWord_status (x : Response) : x.rspWord.extractLsb' 32 4 = x.status.code := by
  refine BitVec.eq_of_getLsbD_eq fun i hi => ?_
  simp [Response.rspWord, hi, show 32 + i < 36 by omega]

theorem rspWord_r (x : Response) : x.rspWord.extractLsb' 0 32 = x.r := by
  refine BitVec.eq_of_getLsbD_eq fun i hi => ?_
  simp [Response.rspWord, hi, show i < 36 by omega]

/-- Settles O11: the two fields are read back, and the codes are those of the table. -/
theorem responseWordLayout : Obligations.ResponseWordLayout := by
  unfold Obligations.ResponseWordLayout
  intro x
  refine ⟨(rspWord_status x).trans ?_, rspWord_r x⟩
  cases x.status with
  | ok => rfl
  | error e => cases e <;> rfl

end Sys2Proof.Machine

/-! PROOFS. Pure commands and reads (20 R32). -/

namespace Sys2Proof.Machine

/-- `t` agrees with `s` on what the read `i` looks at: RDSTAT at `KV`, RDS at `S`, RDW at `W` and `KV` (10 R10, R12,
R13). -/
def LooksSame (i : Instr) (s t : State) : Prop :=
  match i with
  | .rdstat => t.KV = s.KV
  | .rds _ => t.S = s.S
  | .rdw _ => t.W = s.W ∧ t.KV = s.KV
  | _ => False

section Reads

variable {i j : Instr} {s t u : State}

/-- A read changes the response alone, and answers the same in every state that looks the same to it. -/
theorem exec_read (hi : i.isRead = true) (s : State) :
    ∃ x, ∀ t, LooksSame i s t → exec i t = .next { t with rsp := x } := by
  cases i with
  | rdstat =>
    refine ⟨some ⟨.ok, s.status⟩, fun t hKV => ?_⟩
    have hstatus : t.status = s.status := by rw [State.status, State.status, show t.KV = s.KV from hKV]
    rw [← hstatus]
    rfl
  | rds idx =>
    rcases Nat.lt_or_ge idx 4 with hlt | hle
    · refine ⟨some ⟨.ok, wordOfColumn s.S[idx]⟩, fun t hS => ?_⟩
      rw [exec_rds_of_lt hlt, show t.S = s.S from hS]
    · exact ⟨_, fun t _ => exec_rds_of_le hle t⟩
  | rdw idx =>
    rcases Nat.lt_or_ge idx 44 with hlt | hle
    · cases hs : s.KV with
      | false => exact ⟨_, fun t ⟨_, hKV⟩ => exec_rdw_of_invalid hlt (hKV.trans hs)⟩
      | true =>
        refine ⟨some ⟨.ok, s.W[idx]⟩, fun t ⟨hW, hKV⟩ => ?_⟩
        rw [exec_rdw_of_valid hlt (hKV.trans hs), hW]
    · exact ⟨_, fun t _ => exec_rdw_of_le hle t⟩
  | _ => cases hi

/-- A response is nothing that a read looks at. -/
theorem looksSame_rsp (hi : i.isRead = true) (s : State) (x : Option Response) :
    LooksSame i s { s with rsp := x } := by
  cases i with
  | rdstat | rds idx => rfl
  | rdw idx => exact ⟨rfl, rfl⟩
  | _ => cases hi

theorem looksSame_trans (h : LooksSame i s t) (h' : LooksSame i t u) : LooksSame i s u := by
  cases i with
  | rdstat | rds idx => exact Eq.trans h' h
  | rdw idx => exact ⟨h'.1.trans h.1, h'.2.trans h.2⟩
  | _ => cases h

/-- A command that is no writer of what the read looks at keeps it (10 R10, R12, R13). -/
theorem looksSame_of_exec (hi : i.isRead = true) (hw : j.writesWhatReads i = false) (h : exec j s = .next t) :
    LooksSame i s t := by
  cases i with
  | rdstat => exact exec_keeps_KV hw s t h
  | rds idx => exact S_of_exec h hw
  | rdw idx =>
    have hne : j ≠ .keyexpand := fun hj => absurd (hw.symm.trans (congrArg Instr.writesKV hj)) Bool.false_ne_true
    exact ⟨W_of_exec h hne, exec_keeps_KV hw s t h⟩
  | _ => cases hi

/-- Commands that are quiet for a read complete and keep what it looks at: an error changes the response alone. -/
theorem execAll_of_quietFor (hi : i.isRead = true) {is : List Instr} (hq : QuietFor i is s) :
    ∃ u, execAll is s = .next u ∧ LooksSame i s u := by
  induction is generalizing s with
  | nil => exact ⟨s, rfl, looksSame_rsp hi s s.rsp⟩
  | cons j is ih =>
    obtain ⟨hj, hrest⟩ := hq
    obtain ⟨t, ht⟩ := exec_goes j s
    have hsame : LooksSame i s t := by
      rcases hj with hw | ⟨t', e, ht', hr⟩
      · exact looksSame_of_exec hi hw ht
      · obtain rfl := Host.Outcome.next.inj (ht'.symm.trans ht)
        rw [eq_of_exec_error ht hr]
        exact looksSame_rsp hi s _
    obtain ⟨u, hu, hlook⟩ := ih (hrest t ht)
    exact ⟨u, (execAll_cons_of_next ht is).trans hu, looksSame_trans hsame hlook⟩

end Reads

/-- Settles O21: a pure command looks at no state, and a read answers the same in every state that looks the same. -/
theorem pureCommandsAndReadsChangeNothing : Obligations.PureCommandsAndReadsChangeNothing := by
  unfold Obligations.PureCommandsAndReadsChangeNothing
  constructor
  · intro i hi
    exact exec_of_isPure hi
  · intro i s is hi
    obtain ⟨x, hx⟩ := exec_read hi s
    have hagain := looksSame_rsp hi s x
    refine ⟨{ s with rsp := x }, hx s (looksSame_rsp hi s s.rsp), rfl, hx _ hagain, fun hq => ?_⟩
    obtain ⟨u, hu, hlook⟩ := execAll_of_quietFor hi hq
    exact ⟨u, hu, hx u (looksSame_trans hagain hlook)⟩

end Sys2Proof.Machine

/-! PROOFS. The laws of the field (40 R53, R54, R59). -/

namespace Sys2Proof.Machine

theorem gfAdd_comm (a b : Byte) : gfAdd a b = gfAdd b a := BitVec.xor_comm a b

theorem gfAdd_assoc (a b c : Byte) : gfAdd (gfAdd a b) c = gfAdd a (gfAdd b c) := BitVec.xor_assoc a b c

/-- A nonzero byte has exactly one inverse (40 R54). -/
theorem gfMul_eq_one_iff {a : Byte} (h : a ≠ 0) (b : Byte) : gfMul a b = 1 ↔ b = gfPow a 254 := by
  rw [gfMul_eq_one_iff_gfInv, gfInv_eq_gfPow_254 h, Option.some_inj, eq_comm]

/-- There are no zero divisors: a nonzero factor can be cancelled by its inverse. -/
theorem eq_zero_or_eq_zero_of_gfMul {a b : Byte} (h : gfMul a b = 0) : a = 0 ∨ b = 0 := by
  by_cases ha : a = 0
  · exact .inl ha
  · right
    obtain ⟨c, -, hac⟩ := gfInv_spec ha
    calc b = gfMul (gfMul a c) b := by rw [hac, one_gfMul]
      _ = gfMul c (gfMul a b) := by rw [gfMul_comm a c, gfMul_assoc]
      _ = 0 := by rw [h, gfMul_zero]

/-- A power is repeated multiplication of 1. -/
theorem gfPow_eq_iterate (a : Byte) (n : Nat) : gfPow a n = (gfMul · a)^[n] 1 := by
  induction n with
  | zero => rfl
  | succ n ih => rw [gfPow_succ, ih, Function.iterate_succ_apply']

/-- Exponents with power 1 are the periods of 1 under multiplication by the byte. -/
theorem gfPow_eq_one_iff (a : Byte) (n : Nat) : gfPow a n = 1 ↔ Function.IsPeriodicPt (gfMul · a) n 1 := by
  rw [gfPow_eq_iterate]
  rfl

/-- A byte with `a^N = 1` has order `N` if no proper divisor of `N` gives 1: the periods of 1 are closed under greatest
common divisors. -/
theorem gfPow_ne_one_of_divisors {a : Byte} {N : Nat} (hN : gfPow a N = 1) (hdvd : ∀ d ∈ N.properDivisors, gfPow a d ≠ 1)
    {n : Nat} (hpos : 0 < n) (hlt : n < N) : gfPow a n ≠ 1 := by
  intro hn
  have hgcd : gfPow a (n.gcd N) = 1 :=
    (gfPow_eq_one_iff a _).mpr (((gfPow_eq_one_iff a n).mp hn).gcd ((gfPow_eq_one_iff a N).mp hN))
  have hle : n.gcd N ≤ n := Nat.gcd_le_left N hpos
  exact hdvd _ (Nat.mem_properDivisors.mpr ⟨Nat.gcd_dvd_right n N, hle.trans_lt hlt⟩) hgcd

theorem gfPow_two_51 : gfPow 2 51 = 1 := (gfPow_two_add_51 0).trans (gfPow_zero 2)

set_option maxRecDepth 10000 in
/-- 02 to the proper divisors of 51 (all evaluated; the power unfolds one product inside the other, deeper than the
default limit). -/
theorem gfPow_two_ne_one : ∀ d ∈ Nat.properDivisors 51, gfPow 2 d ≠ 1 := by
  rw [show Nat.properDivisors 51 = {1, 3, 17} from rfl]
  decide

set_option maxRecDepth 10000 in
/-- 03 to the proper divisors of 255 (all evaluated, as for 02). -/
theorem gfPow_three_ne_one : ∀ d ∈ Nat.properDivisors 255, gfPow 3 d ≠ 1 := by
  rw [show Nat.properDivisors 255 = {1, 3, 5, 15, 17, 51, 85} from rfl]
  decide

/-- Settles O28: the product is commutative, associative and distributive, and the orders need checking on the proper
divisors of 51 and 255 alone. -/
theorem fieldLaws : Obligations.FieldLaws := by
  unfold Obligations.FieldLaws
  refine ⟨?_, ?_, gfMul_xor, ?_, ?_, ?_, ⟨?_, ?_⟩, ⟨?_, ?_⟩⟩
  · intro a b
    exact ⟨gfAdd_comm a b, gfMul_comm a b⟩
  · intro a b c
    exact ⟨gfAdd_assoc a b c, gfMul_assoc a b c⟩
  · intro a
    exact ⟨BitVec.xor_zero, BitVec.xor_self, gfMul_one a, gfMul_zero a⟩
  · intro a b h
    exact eq_zero_or_eq_zero_of_gfMul h
  · intro a h
    exact ⟨gfPow a 254, gfMul_eq_one_iff h⟩
  · exact gfPow_two_51
  · intro n
    exact gfPow_ne_one_of_divisors gfPow_two_51 gfPow_two_ne_one
  · exact gfPow_255 (by decide)
  · intro n
    exact gfPow_ne_one_of_divisors (gfPow_255 (by decide)) gfPow_three_ne_one

/-- The powers of a nonzero byte repeat with period 255 (40 R53). -/
theorem gfPow_mod_255 {a : Byte} (h : a ≠ 0) (n : Nat) : gfPow a (n % 255) = gfPow a n := by
  have hperiod := (gfPow_eq_one_iff a 255).mp (gfPow_255 h)
  rw [gfPow_eq_iterate, gfPow_eq_iterate]
  exact hperiod.iterate_mod_apply n

/-- Settles O29: the powers repeat with period 255, because the 255th is 1. -/
theorem powerRules : Obligations.PowerRules := by
  unfold Obligations.PowerRules
  refine ⟨gfPow_zero, gfPow_succ, gfPow_add, ?_, gfPow_one, fun _ => gfPow_255, ?_⟩
  · intro n hn
    exact zero_gfPow (Nat.one_le_iff_ne_zero.mp hn)
  · intro a n ha _
    exact (gfPow_mod_255 ha n).symm

/-- Settles O30: `gfInv` finds the 254th power, the one byte whose product with `a` is 1. -/
theorem inverseIsTheUniqueSolution : Obligations.InverseIsTheUniqueSolution := by
  unfold Obligations.InverseIsTheUniqueSolution
  refine ⟨?_, gfInv_zero, ?_⟩
  · intro a ha
    exact ⟨gfPow a 254, gfInv_eq_gfPow_254 ha, gfMul_eq_one_iff ha, rfl⟩
  · intro b
    rw [zero_gfMul]
    decide

end Sys2Proof.Machine

/-! PROOFS. The affine maps and the substitutions (41 R60 to R66). -/

namespace Sys2Proof.Machine

/-- Rotated left by `k`, bit `i` is the old bit `i - k`, that is `i + (8 - k)`, modulo 8. -/
theorem getLsbD_rotateLeft_byte (m : Byte) {i k : Nat} (hi : i < 8) (hk : k < 8) :
    (m.rotateLeft k).getLsbD i = m.getLsbD ((i + (8 - k)) % 8) := by
  rw [BitVec.getLsbD_rotateLeft, Nat.mod_eq_of_lt hk, decide_eq_true hi, Bool.true_and]
  rcases Nat.lt_or_ge i k with h | h
  · rw [decide_eq_true h, cond_true, Nat.mod_eq_of_lt (by omega), Nat.add_comm]
  · rw [decide_eq_false (by omega), cond_false, show (i + (8 - k)) % 8 = i - k by omega]

/-- The affine map by rotations: the four other bits of 41 R60 are those that the four rotations bring to `i`. -/
theorem affine_eq_rotations (m : Byte) :
    affine m = m ^^^ m.rotateLeft 1 ^^^ m.rotateLeft 2 ^^^ m.rotateLeft 3 ^^^ m.rotateLeft 4 ^^^ 0x63#8 := by
  refine BitVec.eq_of_getLsbD_eq fun i hi => ?_
  have hcomm : Std.Commutative Bool.xor := ⟨Bool.xor_comm⟩
  simp (disch := omega) only [getLsbD_affine, BitVec.getLsbD_xor, getLsbD_rotateLeft_byte, Nat.reduceSub]
  ac_rfl

/-- The inverse affine map by rotations: they bring the three bits of 41 R62 to `i`, and 0x63 to 0x05. -/
theorem invAffine_eq_rotations (b : Byte) :
    invAffine b = b.rotateLeft 1 ^^^ b.rotateLeft 3 ^^^ b.rotateLeft 6 ^^^ 0x05#8 := by
  refine BitVec.eq_of_getLsbD_eq fun i hi => ?_
  have hcomm : Std.Commutative Bool.xor := ⟨Bool.xor_comm⟩
  have hconst : ∀ i < 8, (0x05#8).getLsbD i =
      ((0x63#8).getLsbD ((i + 2) % 8) ^^ (0x63#8).getLsbD ((i + 5) % 8) ^^ (0x63#8).getLsbD ((i + 7) % 8)) := by decide
  simp (disch := omega) only [getLsbD_invAffine, BitVec.getLsbD_xor, getLsbD_rotateLeft_byte, Nat.reduceSub, hconst]
  ac_rfl

/-- Settles O35: the bits are those of the definitions, and the linear parts undo each other. -/
theorem affineMaps : Obligations.AffineMaps := by
  unfold Obligations.AffineMaps
  refine ⟨?_, ?_, ?_, by decide, by decide, invAffine_eq_zero_iff⟩
  · intro m
    exact ⟨fun _ => getLsbD_affine m, affine_eq_rotations m⟩
  · intro b
    exact ⟨fun _ => getLsbD_invAffine b, invAffine_eq_rotations b⟩
  · intro m
    exact ⟨invAffine_affine m, affine_invAffine m⟩

/-- The S-box sends no byte to its complement (41 R66; all 256 bytes evaluated, with the rotations, which cost less than
the affine map bit by bit). -/
theorem sbox_ne_complement (b : Byte) : sbox b ≠ b ^^^ 0xFF := by
  rw [sbox, affine_eq_rotations]
  revert b
  decide

/-- Settles O36: the affine maps and the inverse with zero kept undo each other, and so do the substitutions. -/
theorem substitutionsAreInverse : Obligations.SubstitutionsAreInverse := by
  unfold Obligations.SubstitutionsAreInverse
  refine ⟨?_, by decide, ⟨0, by decide⟩, ?_⟩
  · intro b
    exact ⟨invSbox_sbox b, sbox_invSbox b⟩
  · intro b
    exact ⟨sbox_ne_self b, sbox_ne_complement b⟩

end Sys2Proof.Machine

/-! PROOFS. The Word product as the product of polynomials, and its laws (42 R70 to R75). -/

namespace Sys2Proof.Machine

open Sys2Proof.Config (WordOrder)

/-- The coefficient of x^k of the product is the sum of the products of the coefficients of x^(k-j) and x^j: under
`DESC` byte `3 - j` carries x^j, so the sum is taken from its other end (42 R71). -/
theorem coeff_wordMul (ord : WordOrder) (w v : Word) (k : Fin 4) :
    coeff ord (wordMul ord w v) k = xor4 fun j => gfMul (coeff ord v (k - j)) (coeff ord w j) := by
  cases ord with
  | asc =>
    simp only [coeff, degOf, byte_wordMul, rho, add_zero]
  | desc =>
    have hpos (j : Fin 4) : 3 - k + 3 - (3 - j) = 3 - (k - j) := by abel
    simp only [coeff, degOf, byte_wordMul, rho]
    rw [← xor4_sub 3]
    simp only [hpos]

/-- Settles O39: the sum over the four `j`, and the values of the two constants. -/
theorem wordProductIsThePolynomialProduct : Obligations.WordProductIsThePolynomialProduct := by
  unfold Obligations.WordProductIsThePolynomialProduct
  refine ⟨?_, ?_, fwdConst_asc, invConst_asc, fwdConst_desc, invConst_desc, ?_, ?_⟩
  · intro ord w v k
    rw [coeff_wordMul, xor4, sub_zero]
  · intro ord s w v
    rfl
  · exact (wordMul_fwdConst_invConst .asc).trans (by decide)
  · exact (wordMul_fwdConst_invConst .desc).trans (by decide)

theorem byte_xor (w v : Word) (k : Fin 4) : byte (w ^^^ v) k = byte w k ^^^ byte v k := BitVec.extractLsb'_xor

theorem xor4_xor (t u : Fin 4 → Byte) : xor4 (fun j => t j ^^^ u j) = xor4 t ^^^ xor4 u := by
  simp only [xor4]; ac_rfl

/-- The Word product is distributive, byte by byte and term by term. -/
theorem wordMul_wordXor (ord : WordOrder) (w v u : Word) :
    wordMul ord w (wordXor v u) = wordXor (wordMul ord w v) (wordMul ord w u) := by
  refine word_ext fun m => ?_
  simp only [wordXor, byte_xor, byte_wordMul, xor_gfMul, xor4_xor]

/-- The product with x under `ASC` moves every byte up by one, the last to the front: of each sum one term is left. -/
theorem wordMul_asc_x (w : Word) : wordMul .asc w 0x00010000#32 = word (byte w 3) (byte w 0) (byte w 1) (byte w 2) := by
  have hx : 0x00010000#32 = word 0 1 0 0 := by decide
  rw [hx, wordMul_asc, byte_word_0, byte_word_1, byte_word_2, byte_word_3]
  simp only [one_gfMul, zero_gfMul]
  simp

/-- The product with the Word of four ones under `ASC` is the sum of the bytes, four times. -/
theorem wordMul_asc_ones (w : Word) : wordMul .asc w 0x01010101#32 =
    word (xor4 (byte w)) (xor4 (byte w)) (xor4 (byte w)) (xor4 (byte w)) := by
  have hones : 0x01010101#32 = word 1 1 1 1 := by decide
  rw [hones, wordMul_asc, byte_word_0, byte_word_1, byte_word_2, byte_word_3]
  simp only [one_gfMul]
  rfl

/-- Settles O40: the laws of the field carry over to the sums, and the product of the two constants is the unit. -/
theorem wordProductLaws : Obligations.WordProductLaws := by
  unfold Obligations.WordProductLaws
  constructor
  · intro ord w v u
    refine ⟨wordMul_comm ord w v, wordMul_assoc ord w v u, wordMul_wordXor ord w v u, ?_⟩
    rw [wordMul_assoc, wordMul_fwdConst_invConst, wordMul_oneWord]
  · intro w
    exact ⟨wordMul_asc_one w, wordMul_asc_x w, _, wordMul_asc_ones w⟩

end Sys2Proof.Machine

/-! PROOFS. MIXCOLUMNS and INVMIXCOLUMNS (43 R84, R85, R93, R94): the entry of the matrix at row `r`, column `j` is the
coefficient `r - j` of the constant under `ASC`, and `j - r` under `DESC`. -/

namespace Sys2Proof.Machine

open Sys2Proof.Config (WordOrder)

/-- Byte `k` of the Word of a polynomial is the coefficient whose power byte `k` carries (42 R70). -/
theorem byte_wordOfPoly (ord : WordOrder) (p : Vector Byte 4) (k : Fin 4) :
    byte (wordOfPoly ord p) k = p[degOf ord k] := by
  match k with
  | 0 => exact byte_word_0 ..
  | 1 => exact byte_word_1 ..
  | 2 => exact byte_word_2 ..
  | 3 => exact byte_word_3 ..

section Matrix

variable (p : Vector Byte 4) (T : Block) (c r : Fin 4)

theorem mulColumns_poly_getElem (ord : WordOrder) :
    (mulColumns ord (wordOfPoly ord p) T)[c][r] = xor4 fun j => gfMul p[degOf ord (r + rho ord - j)] T[c][j] := by
  rw [mulColumns_getElem, byte_wordMul]
  simp only [byte_wordOfPoly, byte_wordOfColumn]

theorem mulColumns_asc_getElem :
    (mulColumns .asc (wordOfPoly .asc p) T)[c][r] = xor4 fun j => gfMul p[r - j] T[c][j] := by
  rw [mulColumns_poly_getElem]
  simp only [degOf, rho, add_zero]

theorem mulColumns_desc_getElem :
    (mulColumns .desc (wordOfPoly .desc p) T)[c][r] = xor4 fun j => gfMul p[j - r] T[c][j] := by
  have hpos (j : Fin 4) : 3 - (r + 3 - j) = j - r := by abel
  rw [mulColumns_poly_getElem]
  simp only [degOf, rho, hpos]

/-- Four equal bytes stay if the coefficients add up to 1: every row adds each of them once. -/
theorem mulColumns_asc_of_equal_bytes {p : Vector Byte 4} (hp : xor4 (fun j => p[j]) = 1) {T : Block} {c : Fin 4}
    {b : Byte} (h : T[c] = #v[b, b, b, b]) : (mulColumns .asc (wordOfPoly .asc p) T)[c] = T[c] := by
  have hb (j : Fin 4) : T[c][j] = b := by
    rw [h]
    match j with
    | 0 | 1 | 2 | 3 => rfl
  refine Vector.ext fun r hr => (mulColumns_asc_getElem p T c ⟨r, hr⟩).trans ?_
  simp only [hb, ← xor4_gfMul]
  rw [xor4_sub ⟨r, hr⟩ (fun j => p[j]), hp, one_gfMul]
  exact (hb ⟨r, hr⟩).symm

end Matrix

/-- The rows of the matrix under `ASC`: every row is the one above it, moved to the right by one. -/
theorem xor4_asc_rows (p0 p1 p2 p3 : Byte) (t : Fin 4 → Byte) :
    xor4 (fun j => gfMul #v[p0, p1, p2, p3][0 - j] (t j)) =
      gfMul p0 (t 0) ^^^ gfMul p3 (t 1) ^^^ gfMul p2 (t 2) ^^^ gfMul p1 (t 3) ∧
    xor4 (fun j => gfMul #v[p0, p1, p2, p3][1 - j] (t j)) =
      gfMul p1 (t 0) ^^^ gfMul p0 (t 1) ^^^ gfMul p3 (t 2) ^^^ gfMul p2 (t 3) ∧
    xor4 (fun j => gfMul #v[p0, p1, p2, p3][2 - j] (t j)) =
      gfMul p2 (t 0) ^^^ gfMul p1 (t 1) ^^^ gfMul p0 (t 2) ^^^ gfMul p3 (t 3) ∧
    xor4 (fun j => gfMul #v[p0, p1, p2, p3][3 - j] (t j)) =
      gfMul p3 (t 0) ^^^ gfMul p2 (t 1) ^^^ gfMul p1 (t 2) ^^^ gfMul p0 (t 3) := ⟨rfl, rfl, rfl, rfl⟩

/-- The rows of the transposed matrix, under `DESC`. -/
theorem xor4_desc_rows (p0 p1 p2 p3 : Byte) (t : Fin 4 → Byte) :
    xor4 (fun j => gfMul #v[p0, p1, p2, p3][j - 0] (t j)) =
      gfMul p0 (t 0) ^^^ gfMul p1 (t 1) ^^^ gfMul p2 (t 2) ^^^ gfMul p3 (t 3) ∧
    xor4 (fun j => gfMul #v[p0, p1, p2, p3][j - 1] (t j)) =
      gfMul p3 (t 0) ^^^ gfMul p0 (t 1) ^^^ gfMul p1 (t 2) ^^^ gfMul p2 (t 3) ∧
    xor4 (fun j => gfMul #v[p0, p1, p2, p3][j - 2] (t j)) =
      gfMul p2 (t 0) ^^^ gfMul p3 (t 1) ^^^ gfMul p0 (t 2) ^^^ gfMul p1 (t 3) ∧
    xor4 (fun j => gfMul #v[p0, p1, p2, p3][j - 3] (t j)) =
      gfMul p1 (t 0) ^^^ gfMul p2 (t 1) ^^^ gfMul p3 (t 2) ^^^ gfMul p0 (t 3) := ⟨rfl, rfl, rfl, rfl⟩

theorem execUnder_mixcolumns (ord : WordOrder) (s : State) : execUnder ord .mixcolumns s =
    .next { s with S := mixColumns ord s.S, rsp := okZero } := rfl

theorem execUnder_invmixcolumns (ord : WordOrder) (s : State) : execUnder ord .invmixcolumns s =
    .next { s with S := invMixColumns ord s.S, rsp := okZero } := rfl

theorem exec_mixcolumns (s : State) :
    exec .mixcolumns s = .next { s with S := mixColumns .asc s.S, rsp := okZero } := rfl

theorem exec_invmixcolumns (s : State) :
    exec .invmixcolumns s = .next { s with S := invMixColumns .asc s.S, rsp := okZero } := rfl

/-- Settles O46: the rows of the two matrices are those of the coefficients of the two constants, which add up to 1;
under `DESC` the matrices are transposed. -/
theorem mixColumnsMultipliesEachColumn : Obligations.MixColumnsMultipliesEachColumn := by
  unfold Obligations.MixColumnsMultipliesEachColumn
  refine ⟨encodedN_of_decode decode_mixcolumns, encodedN_of_decode decode_invmixcolumns, ?_, ?_, ?_, ?_, ?_⟩
  · intro s
    refine ⟨_, exec_mixcolumns s, rfl, fun c => ?_⟩
    have hrow := mulColumns_asc_getElem #v[0x02, 0x01, 0x01, 0x03] s.S c
    obtain ⟨h0, h1, h2, h3⟩ := xor4_asc_rows 0x02 0x01 0x01 0x03 fun j => s.S[c][j]
    simp only [one_gfMul] at h0 h1 h2 h3
    exact ⟨(hrow 0).trans h0, (hrow 1).trans h1, (hrow 2).trans h2, (hrow 3).trans h3,
      fun b => mulColumns_asc_of_equal_bytes (by decide)⟩
  · intro s
    refine ⟨_, exec_invmixcolumns s, rfl, fun c => ?_⟩
    have hrow := mulColumns_asc_getElem #v[0x0E, 0x09, 0x0D, 0x0B] s.S c
    exact ⟨hrow 0, hrow 1, hrow 2, hrow 3, fun b => mulColumns_asc_of_equal_bytes (by decide)⟩
  · intro s t hS
    constructor
    · intro ht
      rw [S_eq_of_exec (exec_mixcolumns s) ht, hS]; decide
    · intro ht
      rw [S_eq_of_exec (exec_invmixcolumns s) ht, hS]; decide
  · intro s
    refine ⟨_, execUnder_mixcolumns .desc s, rfl, fun c => ?_⟩
    have hrow := mulColumns_desc_getElem #v[0x02, 0x01, 0x01, 0x03] s.S c
    obtain ⟨h0, h1, h2, h3⟩ := xor4_desc_rows 0x02 0x01 0x01 0x03 fun j => s.S[c][j]
    simp only [one_gfMul] at h0 h1 h2 h3
    exact ⟨(hrow 0).trans h0, (hrow 1).trans h1, (hrow 2).trans h2, (hrow 3).trans h3⟩
  · intro s
    refine ⟨_, execUnder_invmixcolumns .desc s, rfl, fun c => ?_⟩
    have hrow := mulColumns_desc_getElem #v[0x0E, 0x09, 0x0D, 0x0B] s.S c
    exact ⟨hrow 0, hrow 1, hrow 2, hrow 3⟩

end Sys2Proof.Machine

/-! PROOFS. The properties of the transforms (43 R96). -/

namespace Sys2Proof.Machine

/-- A map with an inverse on both sides is a bijection. -/
theorem bijective_of_inverse {f g : Block → Block} (hleft : ∀ T, g (f T) = T) (hright : ∀ T, f (g T) = T) :
    Function.Bijective f :=
  Function.bijective_iff_has_inverse.mpr ⟨g, hleft, hright⟩

/-- Row `r` is moved by `4r` columns, once around (43 R96). -/
theorem shiftRows_four_times (T : Block) : shiftRows (shiftRows (shiftRows (shiftRows T))) = T := by
  refine block_ext fun c r => ?_
  have haround : c.val = ((c + r + r + r).val + r.val) % 4 := by omega
  rw [shiftRows_getElem _ (Fin.val_add c r), shiftRows_getElem _ (Fin.val_add _ r), shiftRows_getElem _ (Fin.val_add _ r),
    shiftRows_getElem _ haround]

/-- The substitution acts on each byte, wherever the shift brings it (43 R96). -/
theorem subBytes_shiftRows (T : Block) : subBytes (shiftRows T) = shiftRows (subBytes T) := by
  refine block_ext fun c r => ?_
  have hfrom := Fin.val_add c r
  rw [subBytes_getElem, shiftRows_getElem _ hfrom, shiftRows_getElem _ hfrom, subBytes_getElem]

theorem invSubBytes_invShiftRows (T : Block) : invSubBytes (invShiftRows T) = invShiftRows (invSubBytes T) := by
  refine block_ext fun c r => ?_
  have hfrom : (c - r).val = (c.val + 4 - r.val) % 4 := by omega
  rw [invSubBytes_getElem, invShiftRows_getElem _ hfrom, invShiftRows_getElem _ hfrom, invSubBytes_getElem]

/-- Settles O48: each transform and its inverse cancel, so each is a bijection. -/
theorem transformsUndoEachOther : Obligations.TransformsUndoEachOther := by
  unfold Obligations.TransformsUndoEachOther
  refine ⟨?_, ?_, addRoundKey_addRoundKey, ?_, ?_, ?_, ?_, ?_, ?_⟩
  · intro T
    exact ⟨invSubBytes_subBytes T, subBytes_invSubBytes T, invShiftRows_shiftRows T, shiftRows_invShiftRows T,
      shiftRows_four_times T, subBytes_shiftRows T, invSubBytes_invShiftRows T⟩
  · intro ord T
    exact ⟨invMixColumns_mixColumns ord T, mixColumns_invMixColumns ord T⟩
  · exact bijective_of_inverse invSubBytes_subBytes subBytes_invSubBytes
  · exact bijective_of_inverse subBytes_invSubBytes invSubBytes_subBytes
  · exact bijective_of_inverse invShiftRows_shiftRows shiftRows_invShiftRows
  · exact bijective_of_inverse shiftRows_invShiftRows invShiftRows_shiftRows
  · intro ord
    exact ⟨bijective_of_inverse (invMixColumns_mixColumns ord) (mixColumns_invMixColumns ord),
      bijective_of_inverse (mixColumns_invMixColumns ord) (invMixColumns_mixColumns ord)⟩
  · intro k
    have hself := fun T => addRoundKey_addRoundKey T k
    exact bijective_of_inverse hself hself

end Sys2Proof.Machine

/-! PROOFS. The expansion run backwards (44 R110): four consecutive words of a schedule determine the word before
them, so they determine the key. -/

namespace Sys2Proof.Machine

/-- The schedules of two keys agree on the four words from `n` on. -/
def AgreeFrom (k k' : Key) (n : Nat) : Prop :=
  ∀ m (h : m < 44), n ≤ m → m < n + 4 → (expandKey k)[m] = (expandKey k')[m]

/-- The word before four words is the last of them without the temp of the third (44 R110). -/
theorem agreeFrom_of_succ {k k' : Key} {n : Nat} (hn : n < 40) (h : AgreeFrom k k' (n + 1)) : AgreeFrom k k' n := by
  have hbefore : (expandKey k)[n] = (expandKey k')[n] := by
    have h3 : (expandKey k)[n + 3] = (expandKey k')[n + 3] := h (n + 3) (by omega) (by omega) (by omega)
    have h4 : (expandKey k)[n + 4] = (expandKey k')[n + 4] := h (n + 4) (by omega) (by omega) (by omega)
    have hrec (k : Key) := expandKey_recurrence k (i := n + 4) (by omega) (by omega)
    simp only [Nat.add_sub_cancel, show n + 4 - 1 = n + 3 from rfl] at hrec
    rw [hrec k, hrec k', h3] at h4
    exact (BitVec.xor_left_inj _).mp h4
  intro m hm hle hlt
  rcases Nat.eq_or_lt_of_le hle with rfl | hgt
  · exact hbefore
  · exact h m hm hgt (by omega)

/-- Four consecutive words of the schedule determine the key. -/
theorem key_eq_of_agreeFrom {k k' : Key} {n : Nat} (hn : n ≤ 40) (h : AgreeFrom k k' n) : k = k' := by
  induction n with
  | zero =>
    refine Vector.ext fun j hj => ?_
    calc k[j] = (expandKey k)[j] := (expandKey_getElem_key k ⟨j, hj⟩).symm
      _ = (expandKey k')[j] := h j (by omega) (Nat.zero_le j) (by omega)
      _ = k'[j] := expandKey_getElem_key k' ⟨j, hj⟩
  | succ n ih => exact ih (by omega) (agreeFrom_of_succ (by omega) h)

/-- Settles O53: the words of round key `j` are the four words from `4j` on. -/
theorem anyRoundKeyDeterminesTheKey : Obligations.AnyRoundKeyDeterminesTheKey := by
  unfold Obligations.AnyRoundKeyDeterminesTheKey
  intro k k' j hkey
  refine key_eq_of_agreeFrom (n := 4 * j.val) (by omega) fun m hm hle hlt => ?_
  obtain ⟨c, rfl⟩ := Nat.exists_eq_add_of_le hle
  have hc : c < 4 := by omega
  calc (expandKey k)[4 * j.val + c]
      = (roundKey (expandKey k) j)[(⟨c, hc⟩ : Fin 4)] := (roundKey_getElem _ j ⟨c, hc⟩).symm
    _ = (roundKey (expandKey k') j)[(⟨c, hc⟩ : Fin 4)] := by rw [hkey]
    _ = (expandKey k')[4 * j.val + c] := roundKey_getElem _ j ⟨c, hc⟩

end Sys2Proof.Machine

/-! PROOFS. The round trip of the cipher (45 R124), its forty primitive commands (45 R125), and the block that comes
back from any state (30 R47, 70 R157). -/

namespace Sys2Proof.Machine

open Sys2Proof.Config (WordOrder)

section UnderOrder

variable (ord : WordOrder) {s : State}

theorem execUnder_encrypt_of_valid (h : s.KV = true) :
    execUnder ord .encrypt s = .next { s with S := encryptBlock ord s.S s.W, rsp := okZero } := withKey_of_valid h _

theorem execUnder_decrypt_of_valid (h : s.KV = true) :
    execUnder ord .decrypt s = .next { s with S := decryptBlock ord s.S s.W, rsp := okZero } := withKey_of_valid h _

end UnderOrder

/-- Settles O56: the two sequences undo each other, and the commands are the sequences on `S`. -/
theorem decryptionUndoesEncryption : Obligations.DecryptionUndoesEncryption := by
  unfold Obligations.DecryptionUndoesEncryption
  constructor
  · intro ord T w
    exact ⟨decryptBlock_encryptBlock ord w T, encryptBlock_decryptBlock ord w T⟩
  · intro ord s hKV
    constructor
    · refine ⟨_, execUnder_encrypt_of_valid ord hKV, ?_⟩
      rw [execUnder_decrypt_of_valid, decryptBlock_encryptBlock]
      exact hKV
    · refine ⟨_, execUnder_decrypt_of_valid ord hKV, ?_⟩
      rw [execUnder_encrypt_of_valid, encryptBlock_decryptBlock]
      exact hKV

/-- With a valid schedule `w`, the commands transform `S` by `f`, each of them answers `OK, 0`, and there is at least
one, so that `OK, 0` is the response that stands. -/
def Transforms (w : Schedule) (is : List Instr) (f : Block → Block) : Prop :=
  ∀ s : State, s.KV = true → s.W = w →
    execAll is s = .next { s with S := f s.S, rsp := okZero } ∧ responses is s = List.replicate is.length okZero

/-- Commands that complete answer, and then the rest answer from the state they leave. -/
theorem responses_append_of_next {is : List Instr} {s t : State} (h : execAll is s = .next t) (js : List Instr) :
    responses (is ++ js) s = responses is s ++ responses js t := by
  induction is generalizing s with
  | nil =>
    obtain rfl : s = t := Host.Outcome.next.inj h
    rfl
  | cons i is ih =>
    obtain ⟨u, hu⟩ := exec_goes i s
    rw [execAll_cons_of_next hu] at h
    rw [List.cons_append, responses_cons_of_next hu, responses_cons_of_next hu, ih h, List.cons_append]

namespace Transforms

variable {w : Schedule} {is js : List Instr} {f g : Block → Block}

theorem of_exec {i : Instr} (h : ∀ s, s.KV = true → s.W = w → exec i s = .next { s with S := f s.S, rsp := okZero }) :
    Transforms w [i] f := by
  intro s hKV hW
  have hi := h s hKV hW
  exact ⟨execAll_cons_of_next hi [], responses_cons_of_next hi []⟩

theorem append (hf : Transforms w is f) (hg : Transforms w js g) : Transforms w (is ++ js) fun T => g (f T) := by
  intro s hKV hW
  obtain ⟨hexec, hresp⟩ := hf s hKV hW
  obtain ⟨hexec', hresp'⟩ := hg { s with S := f s.S, rsp := okZero } hKV hW
  constructor
  · rw [execAll_append_of_next hexec, hexec']
  · rw [responses_append_of_next hexec, hresp, hresp', List.length_append, List.replicate_add]

/-- Commands followed by one group of commands for each of a list of rounds. -/
theorem append_flatMap {κ : Type} {group : κ → List Instr} {round : Block → κ → Block} (hf : Transforms w is f)
    (hround : ∀ k, Transforms w (group k) fun T => round T k) (ks : List κ) :
    Transforms w (is ++ ks.flatMap group) fun T => ks.foldl round (f T) := by
  induction ks generalizing is f with
  | nil =>
    rw [List.flatMap_nil, List.append_nil]
    exact hf
  | cons k ks ih =>
    rw [List.flatMap_cons, ← List.append_assoc]
    exact ih (hf.append (hround k))

variable (w)

theorem subbytes : Transforms w [.subbytes] subBytes := of_exec fun s _ _ => exec_subbytes s

theorem invsubbytes : Transforms w [.invsubbytes] invSubBytes := of_exec fun s _ _ => exec_invsubbytes s

theorem shiftrows : Transforms w [.shiftrows] shiftRows := of_exec fun s _ _ => exec_shiftrows s

theorem invshiftrows : Transforms w [.invshiftrows] invShiftRows := of_exec fun s _ _ => exec_invshiftrows s

theorem mixcolumns : Transforms w [.mixcolumns] (mixColumns .asc) := of_exec fun s _ _ => exec_mixcolumns s

theorem invmixcolumns : Transforms w [.invmixcolumns] (invMixColumns .asc) := of_exec fun s _ _ => exec_invmixcolumns s

theorem addroundkey (k : Fin 11) : Transforms w [.addroundkey k.val] fun T => ark T w k :=
  of_exec fun _ hKV hW => hW ▸ exec_addroundkey_of_valid hKV k

/-- The four commands of a full round of encryption (45 R120). -/
theorem encryptRound (k : Fin 11) :
    Transforms w [.subbytes, .shiftrows, .mixcolumns, .addroundkey k.val] fun T => Machine.encryptRound .asc w T k :=
  (((subbytes w).append (shiftrows w)).append (mixcolumns w)).append (addroundkey w k)

/-- The four commands of a full round of decryption (45 R121). -/
theorem decryptRound (k : Fin 11) :
    Transforms w [.invshiftrows, .invsubbytes, .addroundkey k.val, .invmixcolumns]
      fun T => Machine.decryptRound .asc w T k :=
  (((invshiftrows w).append (invsubbytes w)).append (addroundkey w k)).append (invmixcolumns w)

/-- The forty commands of 45 R125 are the sequence of 45 R120. -/
theorem encryptCommands : Transforms w encryptCommands fun T => encryptBlock .asc T w := by
  have hlast := ((subbytes w).append (shiftrows w)).append (addroundkey w 10)
  exact ((addroundkey w 0).append_flatMap (encryptRound w) fullRounds).append hlast

/-- The forty commands of 45 R125 are the sequence of 45 R121. -/
theorem decryptCommands : Transforms w decryptCommands fun T => decryptBlock .asc T w := by
  have hlast := ((invshiftrows w).append (invsubbytes w)).append (addroundkey w 0)
  exact ((addroundkey w 10).append_flatMap (decryptRound w) fullRounds.reverse).append hlast

end Transforms

/-- Settles O57: the forty commands transform `S` as the sequence of rounds does. -/
theorem cipherEqualsFortyPrimitiveCommands : Obligations.CipherEqualsFortyPrimitiveCommands := by
  unfold Obligations.CipherEqualsFortyPrimitiveCommands
  intro s hKV
  obtain ⟨henc, hencResp⟩ := Transforms.encryptCommands s.W s hKV rfl
  obtain ⟨hdec, hdecResp⟩ := Transforms.decryptCommands s.W s hKV rfl
  exact ⟨(exec_encrypt_of_valid hKV).trans henc.symm, (exec_decrypt_of_valid hKV).trans hdec.symm, hencResp, hdecResp⟩

/-- SETKEY leaves the key and its schedule and sets `KV` (30 R47). -/
theorem execAll_setkey (k : Vector Byte 16) (s : State) : execAll (setkey k) s =
    .next { s with K := keyOfBytes k, W := expandKey (keyOfBytes k), KV := true, rsp := okZero } := by
  rw [setkey, execAll_append_of_next (execAll_ldkey128 k s), execAll_cons_of_next (exec_keyexpand _)]
  rfl

/-- With a valid schedule, a block is loaded and encrypted. -/
theorem execAll_ldblk_encrypt (h : Vector Byte 16) {s : State} (hKV : s.KV = true) :
    execAll (ldblk h ++ [Instr.encrypt]) s = .next { s with S := encryptBlock .asc (blockOfBytes h) s.W, rsp := okZero } :=
  have hloaded := exec_encrypt_of_valid (s := { s with S := blockOfBytes h, rsp := okZero }) hKV
  (execAll_ldblk_append h _ s).trans (execAll_cons_of_next hloaded [])

/-- With a valid schedule, a block is loaded and decrypted. -/
theorem execAll_ldblk_decrypt (h : Vector Byte 16) {s : State} (hKV : s.KV = true) :
    execAll (ldblk h ++ [Instr.decrypt]) s = .next { s with S := decryptBlock .asc (blockOfBytes h) s.W, rsp := okZero } :=
  have hloaded := exec_decrypt_of_valid (s := { s with S := blockOfBytes h, rsp := okZero }) hKV
  (execAll_ldblk_append h _ s).trans (execAll_cons_of_next hloaded [])

/-- The State of the bytes that RDBLK reads from a State is the State (20 R23). -/
theorem blockOfBytes_bytesOfResults_columns (T : Block) :
    blockOfBytes (bytesOfResults #v[wordOfColumn T[0], wordOfColumn T[1], wordOfColumn T[2], wordOfColumn T[3]]) = T :=
  block_ext fun c r => (blockOfBytes_getElem _ c r).trans (bytesOfResults_columns_getElem T c r)

/-- Settles O60: SETKEY leaves a valid schedule, which the later commands keep, and decryption undoes encryption. -/
theorem encryptedBlockDecryptsFromAnyState : Obligations.EncryptedBlockDecryptsFromAnyState := by
  unfold Obligations.EncryptedBlockDecryptsFromAnyState
  intro s k h
  have hencrypt := (execAll_append_of_next (execAll_setkey k s) (ldblk h ++ [Instr.encrypt])).trans
    (execAll_ldblk_encrypt h rfl)
  rw [← List.append_assoc] at hencrypt
  refine ⟨_, _, _, hencrypt, bytesOfResults_columns_getElem _, execAll_ldblk_decrypt _ rfl, ?_, rfl, rfl,
    byte_keyOfBytes k⟩
  intro c r
  rw [blockOfBytes_bytesOfResults_columns, decryptBlock_encryptBlock, blockOfBytes_getElem]

end Sys2Proof.Machine
